-- ==== Sys2Proof/Word.lean ====
section
/-! DEFINITION. Word types of the model (spec/00_scope.md R8, spec/30_encoding.md R70 and R71). -/

namespace Sys2Proof

/-- A word of the reference consumer: `WORD_WIDTH` = 32 bits (R8, R53). -/
abbrev Word := BitVec 32

/-- The unit in which memory is addressed. -/
abbrev Byte := BitVec 8

/-- The `opcode` field, `OPCODE_WIDTH` = 6 bits (R70). -/
abbrev Opcode := BitVec 6

/-- The `functionCode` field, `FUNCT_WIDTH` = 6 bits (R70). -/
abbrev FunctionCode := BitVec 6

/-- A register field `rs`, `rt` or `rd`: 5 bits (R71). -/
abbrev RegIndex := BitVec 5

end Sys2Proof
end

