-- ==== Sys2Proof/Machine/Flags.lean ====
section
/-! DEFINITION. The one flag computation of the spec. The Control Unit has no flags (spec/10_state.md R24); the zero
flag is a wire of the reference ALU within one cycle, and no state holds it (spec/41_alu_control.md R139). -/

namespace Sys2Proof.Machine

/-- The ALU's zero flag: 1 exactly when the result is 0 (R139). -/
def zeroFlag (result : Word) : Bool := result == 0#32

end Sys2Proof.Machine
end

