-- ==== Sys2Proof/Machine/Signals.lean ====
section
/-! DEFINITION. The types of the Control Unit's interface (spec/10_state.md R26 to R40): its closed enumerations, its
output vectors, its failures and its result. -/

namespace Sys2Proof.Machine

/-- `ALUOp`, a closed enumeration of three values (R33). -/
inductive ALUOp where
  /-- "always add" (load and store) -/
  | add
  /-- "always subtract" (branch-equal) -/
  | sub
  /-- "consult function code" (R-type) -/
  | funct
  deriving DecidableEq, Repr

/-- `ALUControl`, a closed enumeration of five values (R34). -/
inductive ALUControl where
  | add
  | sub
  | and
  | or
  /-- set-less-than -/
  | slt
  deriving DecidableEq, Repr

/-- The main decode's output (spec/40_main_decode.md R101). A 1-bit signal is a Bool, 1 being `true`. -/
structure MainSignals where
  /-- 1 selects the `rd` field as destination, 0 the `rt` field (R26) -/
  regDst : Bool
  /-- 1 selects the sign-extended immediate as second ALU operand, 0 the register (R27) -/
  aluSrc : Bool
  /-- 1 selects the loaded data for write-back, 0 the ALU result (R28) -/
  memToReg : Bool
  /-- enables the register-file write (R29) -/
  regWrite : Bool
  /-- enables the data-memory write (R30) -/
  memWrite : Bool
  /-- enables the data-memory read (R31) -/
  memRead : Bool
  /-- lets the zero flag affect the next pc (R32) -/
  branch : Bool
  /-- the coarse ALU operation class (R33) -/
  aluOp : ALUOp
  /-- `Jump`: present only when `JUMP_ENABLED` is true (R35) -/
  jump : Option Bool
  deriving DecidableEq, Repr

/-- The composed output: the main signals with `ALUControl` (R38). -/
structure ControlSignals extends MainSignals where
  /-- the operation the ALU executes this cycle (R34) -/
  aluControl : ALUControl
  deriving DecidableEq, Repr

/-- A failure result, carrying the offending field (spec/60_exceptions.md R180 and R181). -/
inductive Failure where
  /-- the opcode matches no recognised class (R180) -/
  | unsupportedOpcode (opcode : Opcode)
  /-- the opcode is R-type and the function code matches no operation (R181) -/
  | unsupportedFunctionCode (functionCode : FunctionCode)
  deriving DecidableEq, Repr

/-- A value or a failure: the spec's sum type `Result` (R10, R38). -/
inductive Result (α : Type) where
  | ok (v : α)
  | err (e : Failure)
  deriving DecidableEq, Repr

end Sys2Proof.Machine
end

