-- ==== Sys2Proof/Machine/Alu.lean ====
section
/-! DEFINITION. The reference ALU (spec/41_alu_control.md R134 to R138): one definition per operation. No overflow is
detected and nothing is raised (R134, R135). -/

namespace Sys2Proof.Machine

/-- `(a + b) mod 2^32` (R134). -/
def aluAdd (a b : Word) : Word := a + b

/-- `(a - b) mod 2^32` (R135). -/
def aluSub (a b : Word) : Word := a - b

/-- `a AND b` (R136). -/
def aluAnd (a b : Word) : Word := a &&& b

/-- `a OR b` (R137). -/
def aluOr (a b : Word) : Word := a ||| b

/-- 1 if `a < b` as signed 32-bit integers, else 0 (R138). -/
def aluSlt (a b : Word) : Word := if a.toInt < b.toInt then 1#32 else 0#32

/-- The ALU's result under an operation (R134 to R138). -/
def aluResult (op : ALUControl) (a b : Word) : Word :=
  match op with
  | .add => aluAdd a b
  | .sub => aluSub a b
  | .and => aluAnd a b
  | .or => aluOr a b
  | .slt => aluSlt a b

end Sys2Proof.Machine
end

