-- ==== Sys2Proof/Config.lean ====
section
/-! DEFINITION. What a configuration fixes, and the free values (spec/00_scope.md R8, spec/93_implementation_defined.md Part 1). -/

namespace Sys2Proof

/-- What the surrounding simulator does after a failure: `UNSUPPORTED_POLICY` (spec/60_exceptions.md R186). -/
inductive UnsupportedPolicy where
  /-- the run stops at the failing instruction -/
  | halt
  /-- the failing instruction has no effect and the simulator goes on -/
  | reportAndSkip
  deriving DecidableEq, Repr

/-- The order of a word's bytes in memory: `BYTE_ORDER`, left open by the spec (spec/20_memory.md R51). -/
inductive ByteOrder where
  /-- the least significant byte at the lowest address -/
  | little
  /-- the most significant byte at the lowest address -/
  | big
  deriving DecidableEq, Repr

/-- A range of the 32-bit address space: `size` bytes from `base`. -/
structure Region where
  base : Word
  size : Nat
  deriving DecidableEq, Repr

/-- `ADDRESS_MAP`, left open by the spec (spec/20_memory.md R54): the ranges where each of the two memories of R163 is
there. An address outside them is no memory: a hole, a reserved range or an I/O region. -/
structure AddressMap where
  /-- where the instruction memory is -/
  instruction : List Region
  /-- where the data memory is -/
  data : List Region
  deriving DecidableEq, Repr

/-- The map under which both memories fill the whole address space. -/
def AddressMap.whole : AddressMap where
  instruction := [{ base := 0#32, size := 2 ^ 32 }]
  data := [{ base := 0#32, size := 2 ^ 32 }]

/-- The parameters of one configuration. They are fixed before the first evaluation and no step changes them
(spec/70_reset_and_hazards.md R212). They stand in the machine's state so that a claim can speak of every
configuration. DESIGN CHOICE, safe: log entry 2. -/
structure Config where
  /-- `JUMP_ENABLED` (R8, R75) -/
  jumpEnabled : Bool
  /-- `UNSUPPORTED_POLICY` (R8, R186) -/
  unsupportedPolicy : UnsupportedPolicy
  /-- `BYTE_ORDER` (R51) -/
  byteOrder : ByteOrder
  /-- `ADDRESS_MAP` (R54) -/
  addressMap : AddressMap
  /-- the address given as the program's end, where one is given (R166) -/
  programEnd : Option Word
  deriving DecidableEq, Repr

/-- The configuration after reset. `JUMP_ENABLED` is false by R8. The rest the spec leaves open: DESIGN CHOICE,
unsafe: log entries 4, 5, 6 and 12. -/
def Config.reset : Config where
  jumpEnabled := false
  unsupportedPolicy := .halt
  byteOrder := .little
  addressMap := .whole
  programEnd := none

/-- The free value of the byte at `address` in the `draw`-th draw: a data byte nothing has written holds any value
(spec/93_implementation_defined.md I17). It has no body, so no proof knows what it is. Log entry 9, safe. -/
opaque Config.freeByte (draw address : Nat) : Byte

end Sys2Proof
end

