-- ==== Sys2Proof/Machine/ControlUnit.lean ====
section
/-! DEFINITION. The Control Unit: main decode (spec/40_main_decode.md), ALU-control sub-decode
(spec/41_alu_control.md section 1 and 2), and their composition (spec/42_instructions.md R150). Pure functions of the
two fields and of the configuration parameter `JUMP_ENABLED`, with no state (spec/10_state.md R20). -/

namespace Sys2Proof.Machine

/-- `let x <- r; f x`: a failure is returned at once (spec/00_scope.md R10). -/
def Result.andThen {α β : Type} (r : Result α) (f : α → Result β) : Result β :=
  match r with
  | .ok v => f v
  | .err e => .err e

/-- The entry of a constant table under a key, the first that stands there. -/
def tableEntry {α : Type} (key : BitVec 6) : List (BitVec 6 × α) → Option α
  | [] => none
  | (k, v) :: rest => if key = k then some v else tableEntry key rest

/-- The `Jump` field of a tuple: it exists only when `JUMP_ENABLED` is true (R35, R101). -/
def jumpField (c : Config) (value : Bool) : Option Bool :=
  if c.jumpEnabled then some value else none

/-- `MAIN_RTYPE` (R102). -/
def mainRType (c : Config) : MainSignals where
  regDst := true
  aluSrc := false
  memToReg := false
  regWrite := true
  memWrite := false
  memRead := false
  branch := false
  aluOp := .funct
  jump := jumpField c false

/-- `MAIN_LW` (R103). -/
def mainLw (c : Config) : MainSignals where
  regDst := false
  aluSrc := true
  memToReg := true
  regWrite := true
  memWrite := false
  memRead := true
  branch := false
  aluOp := .add
  jump := jumpField c false

/-- `MAIN_SW` (R104); `RegDst` and `MemToReg` are pinned to 0 (R108). -/
def mainSw (c : Config) : MainSignals where
  regDst := false
  aluSrc := true
  memToReg := false
  regWrite := false
  memWrite := true
  memRead := false
  branch := false
  aluOp := .add
  jump := jumpField c false

/-- `MAIN_BEQ` (R105); `RegDst` and `MemToReg` are pinned to 0 (R108). -/
def mainBeq (c : Config) : MainSignals where
  regDst := false
  aluSrc := false
  memToReg := false
  regWrite := false
  memWrite := false
  memRead := false
  branch := true
  aluOp := .sub
  jump := jumpField c false

/-- `MAIN_J` (R106); `RegDst`, `ALUSrc`, `MemToReg` and `ALUOp` are pinned (R108). -/
def mainJ (c : Config) : MainSignals where
  regDst := false
  aluSrc := false
  memToReg := false
  regWrite := false
  memWrite := false
  memRead := false
  branch := false
  aluOp := .add
  jump := jumpField c true

/-- The main-decode table, constant data with one entry per recognised opcode (R73, R75, R100). -/
def mainTable (c : Config) : List (Opcode × MainSignals) :=
  [(0x00#6, mainRType c), (0x23#6, mainLw c), (0x2B#6, mainSw c), (0x04#6, mainBeq c)]
    ++ (if c.jumpEnabled then [(0x02#6, mainJ c)] else [])

/-- `decode(opcode)`: the table's entry, or `UnsupportedOpcode` (R101, R107). -/
def mainDecode (c : Config) (opcode : Opcode) : Result MainSignals :=
  match tableEntry opcode (mainTable c) with
  | some m => .ok m
  | none => .err (.unsupportedOpcode opcode)

/-- The function-code table, constant data with one entry per recognised function code (R74, R121). -/
def functionTable : List (FunctionCode × ALUControl) :=
  [(0x20#6, .add), (0x22#6, .sub), (0x24#6, .and), (0x25#6, .or), (0x2A#6, .slt)]

/-- `aluControl(ALUOp, functionCode)` (R120): the function code is consulted only under `Funct`. -/
def aluControl (op : ALUOp) (functionCode : FunctionCode) : Result ALUControl :=
  match op with
  | .add => .ok .add
  | .sub => .ok .sub
  | .funct =>
    match tableEntry functionCode functionTable with
    | some a => .ok a
    | none => .err (.unsupportedFunctionCode functionCode)

/-- `controlUnit(opcode, functionCode)`: the composition of the two phases (R150). -/
def controlUnit (c : Config) (opcode : Opcode) (functionCode : FunctionCode) : Result ControlSignals :=
  (mainDecode c opcode).andThen fun m =>
    (aluControl m.aluOp functionCode).andThen fun a =>
      .ok { toMainSignals := m, aluControl := a }

end Sys2Proof.Machine
end

