-- ==== Sys2Proof/Syntax.lean ====
section
/-! DEFINITION. The instructions: one constructor per row of spec/opcode_table.json, with every field of the row's
format (spec/30_encoding.md R71 and R72). `shamt` is kept, though nothing reads it (R81), so that every bit of a word
has its place. -/

namespace Sys2Proof

/-- An instruction of the opcode table, its fields as the format of R71 names them. -/
inductive Instr where
  /-- ADD (spec/42_instructions.md R151) -/
  | add (rs rt rd : RegIndex) (shamt : BitVec 5)
  /-- SUB (R152) -/
  | sub (rs rt rd : RegIndex) (shamt : BitVec 5)
  /-- AND (R153) -/
  | and (rs rt rd : RegIndex) (shamt : BitVec 5)
  /-- OR (R154) -/
  | or (rs rt rd : RegIndex) (shamt : BitVec 5)
  /-- SLT (R155) -/
  | slt (rs rt rd : RegIndex) (shamt : BitVec 5)
  /-- LW (R156) -/
  | lw (rs rt : RegIndex) (imm : BitVec 16)
  /-- SW (R157) -/
  | sw (rs rt : RegIndex) (imm : BitVec 16)
  /-- BEQ (R158) -/
  | beq (rs rt : RegIndex) (imm : BitVec 16)
  /-- J (R159) -/
  | j (target : BitVec 26)
  deriving DecidableEq, Repr

end Sys2Proof
end

