-- ==== Sys2Proof/Decode.lean ====
section
/-! DEFINITION. The fetch stage's field extraction, the decoder from words to instructions and the encoder
(spec/30_encoding.md R71 to R77, spec/opcode_table.json). The decoder reads the whole opcode table, the J row
included: whether the configuration recognises J is the Control Unit's answer (R75, R159), and J's meaning gives it.
DESIGN CHOICE, safe: log entry 16. -/

namespace Sys2Proof

open Sys2Proof.Machine (Failure Result)

/-- `w[31:26]` (R71). -/
def opcodeOf (w : Word) : Opcode := w.extractLsb' 26 6

/-- `w[25:21]` (R71). -/
def rsOf (w : Word) : RegIndex := w.extractLsb' 21 5

/-- `w[20:16]` (R71). -/
def rtOf (w : Word) : RegIndex := w.extractLsb' 16 5

/-- `w[15:11]` (R71). -/
def rdOf (w : Word) : RegIndex := w.extractLsb' 11 5

/-- `w[10:6]` (R71). -/
def shamtOf (w : Word) : BitVec 5 := w.extractLsb' 6 5

/-- `w[5:0]` (R71). -/
def functOf (w : Word) : FunctionCode := w.extractLsb' 0 6

/-- `w[15:0]` (R82). -/
def immOf (w : Word) : BitVec 16 := w.extractLsb' 0 16

/-- `w[25:0]` (R71). -/
def targetOf (w : Word) : BitVec 26 := w.extractLsb' 0 26

/-- The instruction of an R-format word, by its function code (R74, R77). -/
def decodeRType (w : Word) : Result Instr :=
  if functOf w = 0x20#6 then .ok (.add (rsOf w) (rtOf w) (rdOf w) (shamtOf w))
  else if functOf w = 0x22#6 then .ok (.sub (rsOf w) (rtOf w) (rdOf w) (shamtOf w))
  else if functOf w = 0x24#6 then .ok (.and (rsOf w) (rtOf w) (rdOf w) (shamtOf w))
  else if functOf w = 0x25#6 then .ok (.or (rsOf w) (rtOf w) (rdOf w) (shamtOf w))
  else if functOf w = 0x2A#6 then .ok (.slt (rsOf w) (rtOf w) (rdOf w) (shamtOf w))
  else .err (.unsupportedFunctionCode (functOf w))

/-- The instruction of a word, or the failure that names the offending field (R73 to R77). -/
def decode (w : Word) : Result Instr :=
  if opcodeOf w = 0x00#6 then decodeRType w
  else if opcodeOf w = 0x23#6 then .ok (.lw (rsOf w) (rtOf w) (immOf w))
  else if opcodeOf w = 0x2B#6 then .ok (.sw (rsOf w) (rtOf w) (immOf w))
  else if opcodeOf w = 0x04#6 then .ok (.beq (rsOf w) (rtOf w) (immOf w))
  else if opcodeOf w = 0x02#6 then .ok (.j (targetOf w))
  else .err (.unsupportedOpcode (opcodeOf w))

/-- The opcode of an instruction (R73, R75). -/
def Instr.opcode : Instr → Opcode
  | .add _ _ _ _ => 0x00#6
  | .sub _ _ _ _ => 0x00#6
  | .and _ _ _ _ => 0x00#6
  | .or _ _ _ _ => 0x00#6
  | .slt _ _ _ _ => 0x00#6
  | .lw _ _ _ => 0x23#6
  | .sw _ _ _ => 0x2B#6
  | .beq _ _ _ => 0x04#6
  | .j _ => 0x02#6

/-- The function code the fetch stage hands over for an instruction: for the I and J formats the low six bits of the
immediate or the target (R71). -/
def Instr.functionCode : Instr → FunctionCode
  | .add _ _ _ _ => 0x20#6
  | .sub _ _ _ _ => 0x22#6
  | .and _ _ _ _ => 0x24#6
  | .or _ _ _ _ => 0x25#6
  | .slt _ _ _ _ => 0x2A#6
  | .lw _ _ imm => imm.extractLsb' 0 6
  | .sw _ _ imm => imm.extractLsb' 0 6
  | .beq _ _ imm => imm.extractLsb' 0 6
  | .j target => target.extractLsb' 0 6

/-- An R-format word under opcode 0x00 (R71, R73). -/
def encodeR (rs rt rd : RegIndex) (shamt : BitVec 5) (funct : FunctionCode) : Word :=
  (0x00#6 ++ rs ++ rt ++ rd ++ shamt ++ funct).cast rfl

/-- An I-format word (R71). -/
def encodeI (opcode : Opcode) (rs rt : RegIndex) (imm : BitVec 16) : Word :=
  (opcode ++ rs ++ rt ++ imm).cast rfl

/-- A J-format word under opcode 0x02 (R71, R75). -/
def encodeJ (target : BitVec 26) : Word :=
  (0x02#6 ++ target).cast rfl

/-- The word of an instruction (R71 to R75). -/
def encode : Instr → Word
  | .add rs rt rd shamt => encodeR rs rt rd shamt 0x20#6
  | .sub rs rt rd shamt => encodeR rs rt rd shamt 0x22#6
  | .and rs rt rd shamt => encodeR rs rt rd shamt 0x24#6
  | .or rs rt rd shamt => encodeR rs rt rd shamt 0x25#6
  | .slt rs rt rd shamt => encodeR rs rt rd shamt 0x2A#6
  | .lw rs rt imm => encodeI 0x23#6 rs rt imm
  | .sw rs rt imm => encodeI 0x2B#6 rs rt imm
  | .beq rs rt imm => encodeI 0x04#6 rs rt imm
  | .j target => encodeJ target

/-- A word from its four bytes, `b0` at the lowest address (R51; the order is a parameter). -/
def wordOfBytes (order : ByteOrder) (b0 b1 b2 b3 : Byte) : Word :=
  match order with
  | .little => (b3 ++ b2 ++ b1 ++ b0).cast rfl
  | .big => (b0 ++ b1 ++ b2 ++ b3).cast rfl

/-- Byte `k` of a word, counted from its lowest address (R51). -/
def byteOfWord (order : ByteOrder) (w : Word) (k : Nat) : Byte :=
  match order with
  | .little => w.extractLsb' (8 * k) 8
  | .big => w.extractLsb' (8 * (3 - k)) 8

/-- Why bytes are no instruction. -/
inductive DecodeError where
  /-- the word matches no row of the opcode table (R76, R77) -/
  | unrecognised (e : Failure)
  /-- not the four bytes of one instruction: the only length is 32 bits (R71) -/
  | wrongLength (n : Nat)
  deriving DecidableEq, Repr

/-- The decoder on any bytes, the lowest address first. -/
def decodeBytes (order : ByteOrder) : List Byte → Except DecodeError Instr
  | [b0, b1, b2, b3] =>
    match decode (wordOfBytes order b0 b1 b2 b3) with
    | .ok i => .ok i
    | .err e => .error (.unrecognised e)
  | bytes => .error (.wrongLength bytes.length)

/-- The four bytes of a word as memory holds them, the lowest address first. -/
def bytesOfWord (order : ByteOrder) (w : Word) : List Byte :=
  [byteOfWord order w 0, byteOfWord order w 1, byteOfWord order w 2, byteOfWord order w 3]

/-- The instruction the decoder reads from an instruction whose bits are `w`, numbered as spec/opcode_table.json
numbers them. The byte order drops out: the word is laid out and read in the same one. -/
def decodeTableWord (nbits w : Nat) : Option Instr :=
  match decodeBytes .little (bytesOfWord .little (BitVec.ofNat 32 (w % 2 ^ nbits))) with
  | .ok i => some i
  | .error _ => none

end Sys2Proof
end

