-- ==== Sys2Proof/Machine/State.lean ====
section
/-! DEFINITION. The machine's state: the reference consumer of spec/42_instructions.md R163, the configuration, and the
fields of the model's own. The Control Unit has no state (spec/10_state.md R20 to R25, R41). -/

namespace Sys2Proof.Machine

/-- A memory: (address, byte) pairs, addresses strictly rising; an address that is not listed holds no byte that
anything has written. -/
abbrev Memory := List Host.Cell

/-- Why the machine stops. Every reason is the model's: the Control Unit raises no trap (spec/60_exceptions.md R182),
and its failures are answered by a next state (R165, R186). -/
inductive Fault where
  /-- Raised by `fetch` when `halted` is 1: the run has ended (R166). Safe: nothing is claimed of a step past the end. -/
  | halted
  /-- Raised by `fetch` when the pc is at the address given as the program's end (R166). Safe: as above. -/
  | programEnded (pc : Word)
  /-- Raised by `fetch` when the instruction memory holds no whole word at the pc (R163 gives IMem as a mapping, with no
  word where none is loaded). Safe: nothing is claimed of what runs there. Log entry 8. -/
  | noInstruction (pc : Word)
  deriving DecidableEq, Repr

/-- Why the model gives no meaning. -/
inductive Refusal where
  /-- Raised by an arm of `exec` whose instruction has no meaning yet. Safe. -/
  | notModelled (mnemonic : String)
  /-- Raised by `datapath` for a load or store at an address that is not a multiple of 4, which the reference consumer
  refuses (R52, R164). Safe. Log entry 11. -/
  | misalignedAccess (address : Word)
  /-- Raised by `datapath` for a load or store of a word that is not whole in a data range of `ADDRESS_MAP` (R54): the spec
  does not say what happens there. Safe. Log entry 12. -/
  | unmappedAccess (address : Word)
  /-- Raised by `fetch` at a pc whose word is not whole in an instruction range of `ADDRESS_MAP` (R54). Safe. Log entry
  12. -/
  | unmappedFetch (pc : Word)
  /-- Raised by `fetch` at a pc that is not a multiple of 4: `MISALIGNED_POLICY` is open and not given (R52). Safe. Log
  entry 11. -/
  | misalignedFetch (pc : Word)
  /-- Raised by `aluControlPort` for the 2-bit `ALUOp` input 0b11, outside the enumeration (R78, R132). Safe: the composed
  Control Unit never presents it. -/
  | aluOpOutOfDomain (port : BitVec 2)
  deriving DecidableEq, Repr

/-- The machine's state. -/
structure State where
  /-- the program counter (R163) -/
  pc : Word
  /-- the general registers (R163); the cell of `x[0]` is never read and never written, see `getReg` and `setReg` -/
  regs : Vector Word 32
  /-- the instruction memory, never written by the program (R163) -/
  imem : Memory
  /-- the data memory (R163) -/
  dmem : Memory
  /-- the flag `halted` (R163) -/
  halted : Bool
  /-- the configuration, the same over a whole run (R212) -/
  config : Config
  /-- the last failure reported: the diagnostic of R165 and R186. The model's own field, log entry 14. -/
  diagnostic : Option Failure
  /-- the Control Unit's result of the cycle just run, none before the first (R38 to R40, R213). The model's own field,
  log entry 14. -/
  output : Option (Result ControlSignals)
  /-- how many free values have been drawn. The model's own field, log entry 9. -/
  draws : Nat
  deriving DecidableEq, Repr

/-- The machine right after reset: `halted` is 0 (R163) and `JUMP_ENABLED` false (R8). The spec states no reset pc and no
register values (R211, D18): DESIGN CHOICE, unsafe, log entry 3. No memory is listed (log entries 8 and 9). -/
def State.reset : State where
  pc := 0#32
  regs := Vector.replicate 32 0#32
  imem := []
  dmem := []
  halted := false
  config := Config.reset
  diagnostic := none
  output := none
  draws := 0

end Sys2Proof.Machine
end

