-- ==== Sys2Proof/Machine/Ops.lean ====
section
/-! DEFINITION. The named operations over registers and memories, and what the machine does after a failure of the
Control Unit (spec/42_instructions.md R163 to R165, spec/60_exceptions.md R186). -/

namespace Sys2Proof.Machine

/-- The value of `x[r]`; `x[0]` reads 0 (R163). -/
def getReg (regs : Vector Word 32) (r : RegIndex) : Word :=
  if r = 0#5 then 0#32 else regs[r.toNat]'r.isLt

/-- The registers after `x[r] <- v`; a write to `x[0]` is discarded (R163). -/
def setReg (regs : Vector Word 32) (r : RegIndex) (v : Word) : Vector Word 32 :=
  if r = 0#5 then regs else regs.set r.toNat v r.isLt

/-- The byte listed at an address, if one is. -/
def byteAt : Memory → Nat → Option Byte
  | [], _ => none
  | (k, v) :: rest, a => if k = a then some v else byteAt rest a

/-- The memory after one byte is written. -/
def setByte : Memory → Nat → Byte → Memory
  | [], a, v => [(a, v)]
  | (k, u) :: rest, a, v =>
    if a < k then (a, v) :: (k, u) :: rest
    else if a = k then (a, v) :: rest
    else (k, u) :: setByte rest a v

/-- The listed addresses are `low` or above, strictly rising, and inside the 32-bit address space. -/
def risingFrom (low : Nat) : Memory → Bool
  | [] => true
  | (k, _) :: rest => decide (low ≤ k) && decide (k < 2 ^ 32) && risingFrom (k + 1) rest

/-- The canonical form: addresses strictly rising and inside the 32-bit address space. An unlisted address holds no
written byte, so no entry can equal what an unlisted address holds. -/
def Memory.wf (m : Memory) : Bool := risingFrom 0 m

/-- An address is a multiple of 4 (R52, R164). -/
def aligned (a : Word) : Bool := a.extractLsb' 0 2 == 0#2

/-- The byte at an address lies in the range. -/
def regionHolds (r : Region) (a : Nat) : Bool := decide (r.base.toNat ≤ a) && decide (a < r.base.toNat + r.size)

/-- The byte at an address lies in one of the ranges (R54). -/
def mappedByte (regions : List Region) (a : Nat) : Bool := regions.any fun r => regionHolds r a

/-- The word at an address lies whole in one of the ranges (R53, R54). -/
def mappedWord (regions : List Region) (a : Word) : Bool :=
  regions.any fun r => regionHolds r a.toNat && regionHolds r (a.toNat + 3)

/-- A data word the memory collaborator serves: at a multiple of 4 and in `ADDRESS_MAP` (R52, R54). -/
def accessible (c : Config) (a : Word) : Bool := aligned a && mappedWord c.addressMap.data a

/-- The memory after the word `v` is written at `a`: its four bytes, in the configuration's order (R51, R53). -/
def storeWord (order : ByteOrder) (m : Memory) (a v : Word) : Memory :=
  setByte (setByte (setByte (setByte m a.toNat (byteOfWord order v 0)) (a.toNat + 1) (byteOfWord order v 1))
    (a.toNat + 2) (byteOfWord order v 2)) (a.toNat + 3) (byteOfWord order v 3)

/-- The word at `a` where all its four bytes are listed. -/
def writtenWord (order : ByteOrder) (m : Memory) (a : Word) : Option Word :=
  match byteAt m a.toNat, byteAt m (a.toNat + 1), byteAt m (a.toNat + 2), byteAt m (a.toNat + 3) with
  | some b0, some b1, some b2, some b3 => some (wordOfBytes order b0 b1 b2 b3)
  | _, _, _, _ => none

/-- The byte a read sees: the written one, or any value (spec/93_implementation_defined.md I17), the free value of this
draw at this address. Log entry 9, safe. -/
def readByte (m : Memory) (draw a : Nat) : Byte :=
  (byteAt m a).getD (Config.freeByte draw a)

/-- The word a load sees at `a`, byte by byte (R57, I17). -/
def loadWord (order : ByteOrder) (m : Memory) (draw : Nat) (a : Word) : Word :=
  wordOfBytes order (readByte m draw a.toNat) (readByte m draw (a.toNat + 1))
    (readByte m draw (a.toNat + 2)) (readByte m draw (a.toNat + 3))

/-- The count of draws after a load at `a`: a load that meets an unwritten byte uses one up. -/
def drawsAfterLoad (order : ByteOrder) (m : Memory) (draws : Nat) (a : Word) : Nat :=
  if (writtenWord order m a).isSome then draws else draws + 1

/-- What the simulator does after the failure `e` (R165, R186). Under `halt` the run stops at the failing word and no
register or memory changes. Under `report_and_skip` the instruction has no effect and the simulator goes on, at the next
word (DEDUCED, log entry 13, unsafe). Either way the failure is the diagnostic. -/
def takeFailure (e : Failure) (s : State) : State :=
  match s.config.unsupportedPolicy with
  | .halt => { s with halted := true, diagnostic := some e, output := some (.err e) }
  | .reportAndSkip => { s with pc := s.pc + 4#32, diagnostic := some e, output := some (.err e) }

end Sys2Proof.Machine
end

