-- ==== Sys2Proof/Machine/Operands.lean ====
section
/-! DEFINITION. The fields of a word that the datapath reads, and the selections the control signals make among them
(spec/30_encoding.md R71 and R82, spec/42_instructions.md R164). -/

namespace Sys2Proof.Machine

/-- The fields of an instruction word that the reference consumer reads (R164, R166): every view of the same 26 bits. -/
structure Fields where
  /-- `w[25:21]` -/
  rs : RegIndex
  /-- `w[20:16]` -/
  rt : RegIndex
  /-- `w[15:11]` -/
  rd : RegIndex
  /-- `w[15:0]` -/
  imm : BitVec 16
  /-- `w[25:0]` -/
  target : BitVec 26
  deriving DecidableEq, Repr

/-- The fields of a word (R71). -/
def fieldsOf (w : Word) : Fields where
  rs := rsOf w
  rt := rtOf w
  rd := rdOf w
  imm := immOf w
  target := targetOf w

/-- The fields of an R-format instruction (R71). -/
def rFields (rs rt rd : RegIndex) (shamt : BitVec 5) (funct : FunctionCode) : Fields where
  rs := rs
  rt := rt
  rd := rd
  imm := (rd ++ shamt ++ funct).cast rfl
  target := (rs ++ rt ++ rd ++ shamt ++ funct).cast rfl

/-- The fields of an I-format instruction (R71). -/
def iFields (rs rt : RegIndex) (imm : BitVec 16) : Fields where
  rs := rs
  rt := rt
  rd := imm.extractLsb' 11 5
  imm := imm
  target := (rs ++ rt ++ imm).cast rfl

/-- The fields of a J-format instruction (R71). -/
def jFields (target : BitVec 26) : Fields where
  rs := target.extractLsb' 21 5
  rt := target.extractLsb' 16 5
  rd := target.extractLsb' 11 5
  imm := target.extractLsb' 0 16
  target := target

/-- `sext_32(w[15:0])` (R82). -/
def extendedImm (f : Fields) : Word := f.imm.signExtend 32

/-- The ALU's second operand: the immediate when `ALUSrc` is 1, else `x[rt]` (R82, R164). -/
def operandB (aluSrc : Bool) (f : Fields) (regs : Vector Word 32) : Word :=
  if aluSrc then extendedImm f else getReg regs f.rt

/-- The destination field: `rd` when `RegDst` is 1, else `rt` (R82, R164). -/
def destination (regDst : Bool) (f : Fields) : RegIndex :=
  if regDst then f.rd else f.rt

/-- The address a branch goes to: `pc + 4 + (sext_32(w[15:0]) << 2)` (R166). -/
def branchTarget (pc : Word) (f : Fields) : Word :=
  pc + 4#32 + (extendedImm f <<< 2)

/-- The address a jump goes to: `(pc + 4)[31:28]`, `w[25:0]`, `0b00` (R166). -/
def jumpTarget (pc : Word) (f : Fields) : Word :=
  ((pc + 4#32).extractLsb' 28 4 ++ f.target ++ 0#2).cast rfl

end Sys2Proof.Machine
end

