-- ==== Sys2Proof/Machine/Datapath.lean ====
section
/-! DEFINITION. One cycle of the reference consumer (spec/42_instructions.md R164 to R166): what the datapath does with
the Control Unit's result. -/

namespace Sys2Proof.Machine

/-- The ALU's result for the selected operands (R164). -/
def cycleResult (c : ControlSignals) (f : Fields) (s : State) : Word :=
  aluResult c.aluControl (getReg s.regs f.rs) (operandB c.aluSrc f s.regs)

/-- The read data of the cycle: the loaded word when `MemRead` is 1, else any value (R164; log entry 10, safe). -/
def cycleData (c : ControlSignals) (result : Word) (s : State) : Word :=
  if c.memRead then loadWord s.config.byteOrder s.dmem s.draws result
  else loadWord s.config.byteOrder [] s.draws result

/-- The count of draws after the cycle: a load of an unwritten byte uses one up, and so does writing back read data when
nothing was read. -/
def cycleDraws (c : ControlSignals) (result : Word) (s : State) : Nat :=
  if c.memRead then drawsAfterLoad s.config.byteOrder s.dmem s.draws result
  else if c.regWrite && c.memToReg then s.draws + 1 else s.draws

/-- The registers after the cycle: the write-back of R164. -/
def cycleRegs (c : ControlSignals) (f : Fields) (result : Word) (s : State) : Vector Word 32 :=
  if c.regWrite then
    setReg s.regs (destination c.regDst f) (if c.memToReg then cycleData c result s else result)
  else s.regs

/-- The data memory after the cycle: `x[rt]` stored at the ALU's result when `MemWrite` is 1 (R164). -/
def cycleMemory (c : ControlSignals) (f : Fields) (result : Word) (s : State) : Memory :=
  if c.memWrite then storeWord s.config.byteOrder s.dmem result (getReg s.regs f.rt) else s.dmem

/-- The next pc (R166). No tuple has both `Branch` and `Jump`; `Branch` is looked at first. -/
def nextPc (c : ControlSignals) (f : Fields) (result : Word) (pc : Word) : Word :=
  if c.branch && zeroFlag result then branchTarget pc f
  else if c.jump = some true then jumpTarget pc f
  else pc + 4#32

/-- The state after a cycle under the signals `c` (R164, R166). Every operand is read from the state before. -/
def cycleState (c : ControlSignals) (f : Fields) (s : State) : State :=
  { s with
    pc := nextPc c f (cycleResult c f s) s.pc
    regs := cycleRegs c f (cycleResult c f s) s
    dmem := cycleMemory c f (cycleResult c f s) s
    output := some (.ok c)
    draws := cycleDraws c (cycleResult c f s) s }

/-- One cycle under the signals `c`. A memory access at an address that is not a multiple of 4 is refused (R52, R164; log
entry 11), and so is one outside `ADDRESS_MAP` (R54; log entry 12), with no part of the cycle done. -/
def datapath (c : ControlSignals) (f : Fields) (s : State) : Host.Outcome State Fault Refusal :=
  if (c.memRead || c.memWrite) && !aligned (cycleResult c f s) then
    .refused (.misalignedAccess (cycleResult c f s))
  else if (c.memRead || c.memWrite) && !mappedWord s.config.addressMap.data (cycleResult c f s) then
    .refused (.unmappedAccess (cycleResult c f s))
  else .next (cycleState c f s)

/-- One cycle under the Control Unit's result `r`: the datapath under its signals, or what the simulator does after its
failure (R164, R165). -/
def consume (r : Result ControlSignals) (f : Fields) (s : State) : Host.Outcome State Fault Refusal :=
  match r with
  | .ok c => datapath c f s
  | .err e => .next (takeFailure e s)

/-- One cycle on a word: the Control Unit reads `w[31:26]` and `w[5:0]`, the datapath the other fields (R71, R164). -/
def runWord (w : Word) (s : State) : Host.Outcome State Fault Refusal :=
  consume (controlUnit s.config (opcodeOf w) (functOf w)) (fieldsOf w) s

end Sys2Proof.Machine
end

