-- ==== Sys2Proof/Machine/ControlTransfer.lean ====
section
/-! DEFINITION. Branch-equal and the optional jump (spec/42_instructions.md R158, R159 and R166). -/

namespace Sys2Proof.Machine

/-- BEQ: if `x[rs] = x[rt]` then `pc <- pc + 4 + (sext_32(imm) << 2)`, else `pc <- pc + 4` (R158). -/
def execBeq (rs rt : RegIndex) (imm : BitVec 16) (s : State) : Host.Outcome State Fault Refusal :=
  consume (controlUnit s.config 0x04#6 (imm.extractLsb' 0 6)) (iFields rs rt imm) s

/-- J: with `JUMP_ENABLED`, the next pc is the top four bits of `pc + 4`, the target and two zero bits; without it, the
failure `UnsupportedOpcode(0x02)` (R159). -/
def execJ (target : BitVec 26) (s : State) : Host.Outcome State Fault Refusal :=
  consume (controlUnit s.config 0x02#6 (target.extractLsb' 0 6)) (jFields target) s

end Sys2Proof.Machine
end

