-- ==== Sys2Proof/Machine/LoadStore.lean ====
section
/-! DEFINITION. Load word and store word (spec/42_instructions.md R156 and R157). The function code handed to the
Control Unit is the low six bits of the immediate (spec/30_encoding.md R71). -/

namespace Sys2Proof.Machine

/-- LW: `x[rt] <- MemRead(x[rs] + sext_32(imm), 4)` (R156). -/
def execLw (rs rt : RegIndex) (imm : BitVec 16) (s : State) : Host.Outcome State Fault Refusal :=
  consume (controlUnit s.config 0x23#6 (imm.extractLsb' 0 6)) (iFields rs rt imm) s

/-- SW: `MemWrite(x[rs] + sext_32(imm), 4, x[rt])` (R157). -/
def execSw (rs rt : RegIndex) (imm : BitVec 16) (s : State) : Host.Outcome State Fault Refusal :=
  consume (controlUnit s.config 0x2B#6 (imm.extractLsb' 0 6)) (iFields rs rt imm) s

end Sys2Proof.Machine
end

