-- ==== Sys2Proof/Machine/RType.lean ====
section
/-! DEFINITION. The R-type instructions (spec/42_instructions.md R151 to R155). Each meaning hands the Control Unit the
instruction's own opcode and function code and gives the datapath its fields. -/

namespace Sys2Proof.Machine

/-- ADD: `x[rd] <- (x[rs] + x[rt]) mod 2^32` (R151). -/
def execAdd (rs rt rd : RegIndex) (shamt : BitVec 5) (s : State) : Host.Outcome State Fault Refusal :=
  consume (controlUnit s.config 0x00#6 0x20#6) (rFields rs rt rd shamt 0x20#6) s

/-- SUB: `x[rd] <- (x[rs] - x[rt]) mod 2^32` (R152). -/
def execSub (rs rt rd : RegIndex) (shamt : BitVec 5) (s : State) : Host.Outcome State Fault Refusal :=
  consume (controlUnit s.config 0x00#6 0x22#6) (rFields rs rt rd shamt 0x22#6) s

/-- AND: `x[rd] <- x[rs] AND x[rt]` (R153). -/
def execAnd (rs rt rd : RegIndex) (shamt : BitVec 5) (s : State) : Host.Outcome State Fault Refusal :=
  consume (controlUnit s.config 0x00#6 0x24#6) (rFields rs rt rd shamt 0x24#6) s

/-- OR: `x[rd] <- x[rs] OR x[rt]` (R154). -/
def execOr (rs rt rd : RegIndex) (shamt : BitVec 5) (s : State) : Host.Outcome State Fault Refusal :=
  consume (controlUnit s.config 0x00#6 0x25#6) (rFields rs rt rd shamt 0x25#6) s

/-- SLT: `x[rd] <- (signed(x[rs]) < signed(x[rt])) ? 1 : 0` (R155). -/
def execSlt (rs rt rd : RegIndex) (shamt : BitVec 5) (s : State) : Host.Outcome State Fault Refusal :=
  consume (controlUnit s.config 0x00#6 0x2A#6) (rFields rs rt rd shamt 0x2A#6) s

end Sys2Proof.Machine
end

