-- ==== Sys2Proof/Machine/Dispatch.lean ====
section
/-! DEFINITION. The meaning of every instruction, one arm per constructor of `Instr`. -/

namespace Sys2Proof.Machine

def exec (i : Instr) (s : State) : Host.Outcome State Fault Refusal :=
  match i with
  | .add rs rt rd shamt => Sys2Proof.Machine.execAdd rs rt rd shamt s
  | .sub rs rt rd shamt => Sys2Proof.Machine.execSub rs rt rd shamt s
  | .and rs rt rd shamt => Sys2Proof.Machine.execAnd rs rt rd shamt s
  | .or rs rt rd shamt => Sys2Proof.Machine.execOr rs rt rd shamt s
  | .slt rs rt rd shamt => Sys2Proof.Machine.execSlt rs rt rd shamt s
  | .lw rs rt imm => Sys2Proof.Machine.execLw rs rt imm s
  | .sw rs rt imm => Sys2Proof.Machine.execSw rs rt imm s
  | .beq rs rt imm => Sys2Proof.Machine.execBeq rs rt imm s
  | .j target => Sys2Proof.Machine.execJ target s

end Sys2Proof.Machine
end

