-- ==== Sys2Proof/Machine/Fetch.lean ====
section
/-! DEFINITION. Fetching an instruction word from the instruction memory, and loading one there from outside
(spec/42_instructions.md R163 and R166). -/

namespace Sys2Proof.Machine

/-- The word at the pc, or why no instruction runs: the run has ended (R166), the pc is not a multiple of 4 (R52), no
instruction memory is there (R54), or no word is loaded there (R163). -/
def fetch (s : State) : Host.Outcome Word Fault Refusal :=
  if s.halted then .fault .halted
  else if s.config.programEnd = some s.pc then .fault (.programEnded s.pc)
  else if !aligned s.pc then .refused (.misalignedFetch s.pc)
  else if !mappedWord s.config.addressMap.instruction s.pc then .refused (.unmappedFetch s.pc)
  else
    match writtenWord s.config.byteOrder s.imem s.pc with
    | some w => .next w
    | none => .fault (.noInstruction s.pc)

/-- The multiple of 4 at or below an address. -/
def alignDown (a : Word) : Word := (a.extractLsb' 2 30 ++ 0#2).cast rfl

/-- The map with instruction memory for the word at an address, where it had none. -/
def mapInstructionWord (m : AddressMap) (a : Word) : AddressMap :=
  if mappedWord m.instruction a then m
  else { m with instruction := { base := a, size := 4 } :: m.instruction }

/-- The state in which the word `w` is loaded where the next fetch reads, and nothing stands in the way of that fetch: the
pc is a multiple of 4, instruction memory is there, the run is not halted, and no program end stands at the pc. A state that can fetch already keeps
all but its instruction memory. Log entry 18. -/
def loadAtPc (s : State) (w : Word) : State :=
  { s with
    pc := alignDown s.pc
    halted := false
    config := { s.config with
      addressMap := mapInstructionWord s.config.addressMap (alignDown s.pc)
      programEnd := if s.config.programEnd = some (alignDown s.pc) then none else s.config.programEnd }
    imem := storeWord s.config.byteOrder s.imem (alignDown s.pc) w }

end Sys2Proof.Machine
end

