-- ==== Sys2Proof/Machine/Step.lean ====
section
/-! DEFINITION. One step of the machine: fetch, decode, execute. A word the decoder reads no instruction from still goes
through the Control Unit, whose failure the simulator answers (spec/42_instructions.md R164 and R165). -/

namespace Sys2Proof.Machine

/-- One instruction cycle of the reference consumer (R163 to R166). -/
def step (s : State) : Host.Outcome State Fault Refusal :=
  match fetch s with
  | .next w =>
    match decode w with
    | .ok i => exec i s
    | .err _ => runWord w s
  | .fault f => .fault f
  | .refused r => .refused r

/-- The instruction whose bits are `w`, numbered as spec/opcode_table.json numbers them, loaded where the next step
fetches. Log entry 18. -/
def State.withFetchWord (s : State) (nbits w : Nat) : State :=
  loadAtPc s (BitVec.ofNat 32 (w % 2 ^ nbits))

end Sys2Proof.Machine
end

