-- ==== Sys2Proof/Machine/Ports.lean ====
section
/-! DEFINITION. The port-level view of the Control Unit: the bit encodings of its enumerations and its ports
(spec/10_state.md R40, spec/30_encoding.md R78 and R79, spec/41_alu_control.md R132). The enumerations are normative;
the bits are their representation (spec/00_scope.md R11). -/

namespace Sys2Proof.Machine

/-- The 2-bit port code of `ALUOp` (R78). -/
def aluOpPort : ALUOp → BitVec 2
  | .add => 0b00#2
  | .sub => 0b01#2
  | .funct => 0b10#2

/-- The `ALUOp` a port code stands for; `0b11` is outside the enumeration (R78, R132). -/
def aluOpOfPort (p : BitVec 2) : Option ALUOp :=
  if p = 0b00#2 then some .add
  else if p = 0b01#2 then some .sub
  else if p = 0b10#2 then some .funct
  else none

/-- The 4-bit port code of `ALUControl` (R79). -/
def aluControlCode : ALUControl → BitVec 4
  | .and => 0b0000#4
  | .or => 0b0001#4
  | .add => 0b0010#4
  | .sub => 0b0110#4
  | .slt => 0b0111#4

/-- The `ALUControl` a port code stands for; the other eleven codes are never produced and stand for none (R79). -/
def aluControlOfCode (p : BitVec 4) : Option ALUControl :=
  if p = 0b0000#4 then some .and
  else if p = 0b0001#4 then some .or
  else if p = 0b0010#4 then some .add
  else if p = 0b0110#4 then some .sub
  else if p = 0b0111#4 then some .slt
  else none

/-- The standalone ALU-control sub-decode at its ports: under `0b11` it refuses, with neither a value nor a failure
(R132). -/
def aluControlPort (p : BitVec 2) (functionCode : FunctionCode) :
    Host.Outcome (Result ALUControl) Fault Refusal :=
  match aluOpOfPort p with
  | some op => .next (aluControl op functionCode)
  | none => .refused (.aluOpOutOfDomain p)

/-- The 2-bit `err` port: `0b00` Ok, `0b01` UnsupportedOpcode, `0b10` UnsupportedFunctionCode (R40). -/
def errPort {α : Type} : Result α → BitVec 2
  | .ok _ => 0b00#2
  | .err (.unsupportedOpcode _) => 0b01#2
  | .err (.unsupportedFunctionCode _) => 0b10#2

/-- The signal ports of the Control Unit: seven 1-bit signals from `RegDst` (bit 6) to `Branch` (bit 0), `ALUOp`,
`ALUControl`, and `Jump` where the configuration has it (R40). -/
structure SignalPorts where
  signals : BitVec 7
  aluOp : BitVec 2
  aluControl : BitVec 4
  jump : Option (BitVec 1)
  deriving DecidableEq, Repr

/-- The signal ports under a result. When `err` is not `0b00` they carry no meaning, and the model exposes none (R40). -/
def signalPorts : Result ControlSignals → Option SignalPorts
  | .err _ => none
  | .ok c => some {
      signals := BitVec.ofBool c.regDst ++ BitVec.ofBool c.aluSrc ++ BitVec.ofBool c.memToReg
        ++ BitVec.ofBool c.regWrite ++ BitVec.ofBool c.memWrite ++ BitVec.ofBool c.memRead
        ++ BitVec.ofBool c.branch
      aluOp := aluOpPort c.aluOp
      aluControl := aluControlCode c.aluControl
      jump := c.jump.map BitVec.ofBool }

end Sys2Proof.Machine
end

