-- ==== Sys2Proof/Safety.lean ====
section
/-! DEFINITION. What counts as a well-formed state and as a safe run, in the terms claims use. -/

namespace Sys2Proof.Machine

/-- The bookkeeping of the last cycle agrees with the configuration: a tuple has a `Jump` field exactly when
`JUMP_ENABLED` is true (spec/10_state.md R35), and a failure is the diagnostic (spec/42_instructions.md R165). -/
def outputWf (s : State) : Bool :=
  match s.output with
  | none => true
  | some (.ok c) => c.jump.isSome == s.config.jumpEnabled
  | some (.err e) => s.diagnostic == some e

/-- A halted machine names the failure that stopped it (R165). -/
def haltNamesFailure (s : State) : Bool :=
  !s.halted ||
    match s.output, s.diagnostic with
    | some (.err e), some d => e == d
    | _, _ => false

/-- No byte of data memory is listed outside `ADDRESS_MAP` (spec/20_memory.md R54). -/
def dataInMap (s : State) : Bool := s.dmem.all fun cell => mappedByte s.config.addressMap.data cell.1

/-- The invariant of the machine: the pc is a multiple of 4 (R166), both memories are in canonical form, no data byte is
listed outside the address map, a halted machine names its failure, and the last output fits the configuration. -/
abbrev State.Inv (s : State) : Prop :=
  aligned s.pc = true ∧ s.imem.wf = true ∧ s.dmem.wf = true ∧ dataInMap s = true ∧ haltNamesFailure s = true ∧ outputWf s = true

/-- A step runs a recognised instruction: it reaches a next state and the Control Unit's output there is a signal vector,
not a failure. -/
def safeStep (s : State) : Bool :=
  match step s with
  | .next t =>
    match t.output with
    | some (.ok _) => true
    | _ => false
  | .fault _ => false
  | .refused _ => false

/-- The first `n` steps from a state are safe. -/
def safeRun : Nat → State → Bool
  | 0, _ => true
  | n + 1, s =>
    safeStep s &&
      match step s with
      | .next t => safeRun n t
      | .fault _ => false
      | .refused _ => false

end Sys2Proof.Machine
end

