-- ==== Sys2Proof/WellFormed.lean ====
section
/-! DEFINITION. Which instructions a configuration recognises. Field widths are in the types, so the one thing left to
check is the table's own condition on the J row (spec/30_encoding.md R75, spec/opcode_table.json). -/

namespace Sys2Proof

/-- The instruction is recognised under the configuration: every row is, but J only when `JUMP_ENABLED` is true
(R73, R74, R75). -/
def Instr.wellFormed (c : Config) : Instr → Bool
  | .add _ _ _ _ => true
  | .sub _ _ _ _ => true
  | .and _ _ _ _ => true
  | .or _ _ _ _ => true
  | .slt _ _ _ _ => true
  | .lw _ _ _ => true
  | .sw _ _ _ => true
  | .beq _ _ _ => true
  | .j _ => c.jumpEnabled

end Sys2Proof
end

