-- ==== Sys2Proof/Certificates/Slice0/Obligations.lean ====
section
/-! DEFINITION. The statements for the provers, from the spec's numbered rules. They state and prove nothing. -/

namespace Sys2Proof

open Sys2Proof.Machine

/-! ### Vectors in which the statements speak, written out from the spec's tables -/

/-- The `Jump` field of every tuple but J's: 0, and there only when `JUMP_ENABLED` (spec/40_main_decode.md R101). -/
def noJump (c : Config) : Option Bool := if c.jumpEnabled then some false else none

/-- The vector of an R-type instruction whose ALU operation is `a` (spec/42_instructions.md R151 to R155). -/
def rTypeVector (c : Config) (a : ALUControl) : ControlSignals :=
  { regDst := true, aluSrc := false, memToReg := false, regWrite := true, memWrite := false, memRead := false,
    branch := false, aluOp := .funct, jump := noJump c, aluControl := a }

/-- The vector of LW (R156). -/
def lwVector (c : Config) : ControlSignals :=
  { regDst := false, aluSrc := true, memToReg := true, regWrite := true, memWrite := false, memRead := true,
    branch := false, aluOp := .add, jump := noJump c, aluControl := .add }

/-- The vector of SW (R157). -/
def swVector (c : Config) : ControlSignals :=
  { regDst := false, aluSrc := true, memToReg := false, regWrite := false, memWrite := true, memRead := false,
    branch := false, aluOp := .add, jump := noJump c, aluControl := .add }

/-- The vector of BEQ (R158). -/
def beqVector (c : Config) : ControlSignals :=
  { regDst := false, aluSrc := false, memToReg := false, regWrite := false, memWrite := false, memRead := false,
    branch := true, aluOp := .sub, jump := noJump c, aluControl := .sub }

/-- The vector of J, which exists only with `JUMP_ENABLED` (R159). -/
def jVector : ControlSignals :=
  { regDst := false, aluSrc := false, memToReg := false, regWrite := false, memWrite := false, memRead := false,
    branch := false, aluOp := .add, jump := some true, aluControl := .add }

/-- The effective address of LW and SW: `x[rs] + sext_32(imm)` (R156, R157). -/
def effectiveAddress (s : State) (rs : RegIndex) (imm : BitVec 16) : Word :=
  getReg s.regs rs + imm.signExtend 32

/-- The five recognised function codes (spec/30_encoding.md R74). -/
def recognisedFunction (f : FunctionCode) : Prop :=
  f = 0x20#6 ∨ f = 0x22#6 ∨ f = 0x24#6 ∨ f = 0x25#6 ∨ f = 0x2A#6

/-- The recognised opcodes of a configuration (R73, R75). -/
def recognisedOpcode (c : Config) (op : Opcode) : Prop :=
  op = 0x00#6 ∨ op = 0x23#6 ∨ op = 0x2B#6 ∨ op = 0x04#6 ∨ (op = 0x02#6 ∧ c.jumpEnabled = true)

/-- The signed value of a word in two's complement. -/
def signedValue (w : Word) : Int :=
  if w.toNat < 2 ^ 31 then (w.toNat : Int) else (w.toNat : Int) - 2 ^ 32

/-- Everything but the pc, the registers, the data memory, the output and the count of draws stays. -/
def keepsTheRest (s t : State) : Prop :=
  t.imem = s.imem ∧ t.config = s.config ∧ t.halted = s.halted ∧ t.diagnostic = s.diagnostic

/-- Every byte of data memory reads as before. -/
def keepsData (s t : State) : Prop := ∀ a : Nat, byteAt t.dmem a = byteAt s.dmem a

/-- Every register reads as before. -/
def keepsRegs (s t : State) : Prop := ∀ q : RegIndex, getReg t.regs q = getReg s.regs q

/-- Every register but `d` reads as before. -/
def keepsRegsBut (d : RegIndex) (s t : State) : Prop :=
  ∀ q : RegIndex, q ≠ d → getReg t.regs q = getReg s.regs q

end Sys2Proof

open Sys2Proof Sys2Proof.Machine

/-! ### Reset -/

/-- Right after reset the machine is not halted (R163) and `JUMP_ENABLED` is false (R8); no memory byte is listed. That
the pc and the registers read 0 is the model's choice (log entry 3), and so is that both memories fill the address space
(log entry 12). -/
def Obligations.ResetMachineIsRunningAndEmpty : Prop :=
  State.reset.halted = false ∧ State.reset.config.jumpEnabled = false ∧ State.reset.output = none ∧
  (∀ a : Nat, byteAt State.reset.imem a = none ∧ byteAt State.reset.dmem a = none) ∧
  State.reset.pc = 0#32 ∧ (∀ r : RegIndex, getReg State.reset.regs r = 0#32) ∧
  ∀ a : Word, aligned a = true →
    mappedWord State.reset.config.addressMap.instruction a = true ∧ accessible State.reset.config a = true

/-- The reset state meets the invariant that every step keeps. -/
def Obligations.ResetMeetsInvariant : Prop := State.reset.Inv

/-! ### The Control Unit -/

/-- The main decode on every opcode, with every tuple written out (R101 to R107). -/
def Obligations.MainDecodeMatchesTable : Prop :=
  ∀ (c : Config) (op : Opcode), mainDecode c op =
    if op = 0x00#6 then
      .ok { regDst := true, aluSrc := false, memToReg := false, regWrite := true, memWrite := false,
            memRead := false, branch := false, aluOp := .funct, jump := noJump c }
    else if op = 0x23#6 then
      .ok { regDst := false, aluSrc := true, memToReg := true, regWrite := true, memWrite := false,
            memRead := true, branch := false, aluOp := .add, jump := noJump c }
    else if op = 0x2B#6 then
      .ok { regDst := false, aluSrc := true, memToReg := false, regWrite := false, memWrite := true,
            memRead := false, branch := false, aluOp := .add, jump := noJump c }
    else if op = 0x04#6 then
      .ok { regDst := false, aluSrc := false, memToReg := false, regWrite := false, memWrite := false,
            memRead := false, branch := true, aluOp := .sub, jump := noJump c }
    else if op = 0x02#6 ∧ c.jumpEnabled = true then
      .ok { regDst := false, aluSrc := false, memToReg := false, regWrite := false, memWrite := false,
            memRead := false, branch := false, aluOp := .add, jump := some true }
    else .err (.unsupportedOpcode op)

/-- The ALU-control sub-decode on every `ALUOp` and function code (R120, R122 to R130). -/
def Obligations.AluControlMatchesTable : Prop :=
  ∀ f : FunctionCode,
    aluControl .add f = .ok .add ∧ aluControl .sub f = .ok .sub ∧
    aluControl .funct f =
      if f = 0x20#6 then .ok .add
      else if f = 0x22#6 then .ok .sub
      else if f = 0x24#6 then .ok .and
      else if f = 0x25#6 then .ok .or
      else if f = 0x2A#6 then .ok .slt
      else .err (.unsupportedFunctionCode f)

/-- The composed Control Unit fails with `UnsupportedOpcode` exactly on an unrecognised opcode, whatever the function
code, and names it (R76, R180). -/
def Obligations.UnsupportedOpcodeExactlyWhenUnrecognised : Prop :=
  ∀ (c : Config) (op x : Opcode) (f : FunctionCode),
    controlUnit c op f = .err (.unsupportedOpcode x) ↔ x = op ∧ ¬ recognisedOpcode c op

/-- It fails with `UnsupportedFunctionCode` exactly under opcode 0x00 on an unrecognised function code, and names it
(R77, R181). -/
def Obligations.UnsupportedFunctionCodeExactlyUnderRType : Prop :=
  ∀ (c : Config) (op : Opcode) (f x : FunctionCode),
    controlUnit c op f = .err (.unsupportedFunctionCode x) ↔ x = f ∧ op = 0x00#6 ∧ ¬ recognisedFunction f

/-- It succeeds exactly on the recognised instructions: with the two statements above, every input pair falls in exactly
one of the three sets (R80, R185). -/
def Obligations.SuccessExactlyOnRecognisedInstructions : Prop :=
  ∀ (c : Config) (op : Opcode) (f : FunctionCode),
    (∃ v, controlUnit c op f = .ok v) ↔ recognisedOpcode c op ∧ (op = 0x00#6 → recognisedFunction f)

/-- The counts of R80 over all 4096 input pairs without jump: 197 recognised, 3840 and 59 failures. -/
def Obligations.InputSpaceCountsWithoutJump : Prop :=
  let results : List (Result ControlSignals) := (List.range 4096).map fun n =>
    controlUnit Config.reset (BitVec.ofNat 6 (n / 64)) (BitVec.ofNat 6 (n % 64))
  results.countP (fun r => errPort r == 0b00#2) = 197 ∧
  results.countP (fun r => errPort r == 0b01#2) = 3840 ∧
  results.countP (fun r => errPort r == 0b10#2) = 59

/-- Outside the R-type opcode no output depends on the function code (R110, R122, R123). -/
def Obligations.FunctionCodeIgnoredOutsideRType : Prop :=
  ∀ (c : Config) (op : Opcode) (f g : FunctionCode), op ≠ 0x00#6 → controlUnit c op f = controlUnit c op g

/-- No two recognised opcodes share a tuple, and no recognised tuple is all-zero: one of its 1-bit signals is 1
(R109). -/
def Obligations.EachClassHasItsOwnNonzeroTuple : Prop :=
  ∀ (c : Config) (op op' : Opcode) (m : MainSignals), mainDecode c op = .ok m →
    (mainDecode c op' = .ok m → op' = op) ∧
    (m.regDst || m.aluSrc || m.memToReg || m.regWrite || m.memWrite || m.memRead || m.branch
      || m.jump == some true) = true

/-- No vector asks for two things at once: no memory read together with a write, no register write together with a
memory write, no branch together with a jump; and loaded data is written back only from a memory read. -/
def Obligations.SignalsNeverConflict : Prop :=
  ∀ (c : Config) (op : Opcode) (f : FunctionCode) (v : ControlSignals), controlUnit c op f = .ok v →
    (v.memRead && v.memWrite) = false ∧ (v.regWrite && v.memWrite) = false ∧
    (v.branch && v.jump == some true) = false ∧
    (v.memToReg = true → v.memRead = true ∧ v.regWrite = true) ∧ v.jump.isSome = c.jumpEnabled

/-- Only a change of `JUMP_ENABLED` changes a decode: two configurations that agree on it give the same result for the
same fields (R111, R190). -/
def Obligations.DecodeDependsOnJumpEnabledOnly : Prop :=
  ∀ (c d : Config) (op : Opcode) (f : FunctionCode), c.jumpEnabled = d.jumpEnabled →
    controlUnit c op f = controlUnit d op f

/-- The words of the neighbouring architecture's call, system, atomic, fence and cache instructions fail, under every
configuration and, outside opcode 0x00, for every function code (R58, R59, R61, R160, R162). -/
def Obligations.SystemAtomicAndCallCodesFail : Prop :=
  ∀ (c : Config) (f : FunctionCode),
    controlUnit c 0x00#6 0x0F#6 = .err (.unsupportedFunctionCode 0x0F#6) ∧
    controlUnit c 0x30#6 f = .err (.unsupportedOpcode 0x30#6) ∧
    controlUnit c 0x38#6 f = .err (.unsupportedOpcode 0x38#6) ∧
    controlUnit c 0x2F#6 f = .err (.unsupportedOpcode 0x2F#6) ∧
    controlUnit c 0x03#6 f = .err (.unsupportedOpcode 0x03#6) ∧
    controlUnit c 0x00#6 0x08#6 = .err (.unsupportedFunctionCode 0x08#6) ∧
    controlUnit c 0x00#6 0x09#6 = .err (.unsupportedFunctionCode 0x09#6) ∧
    controlUnit c 0x00#6 0x0C#6 = .err (.unsupportedFunctionCode 0x0C#6) ∧
    controlUnit c 0x00#6 0x0D#6 = .err (.unsupportedFunctionCode 0x0D#6) ∧
    controlUnit c 0x10#6 f = .err (.unsupportedOpcode 0x10#6)

/-! ### Ports -/

/-- The port codes of both enumerations, and that the remaining codes stand for no value (R78, R79). -/
def Obligations.PortCodesOfEnumerations : Prop :=
  aluOpPort .add = 0b00#2 ∧ aluOpPort .sub = 0b01#2 ∧ aluOpPort .funct = 0b10#2 ∧
  aluControlCode .and = 0b0000#4 ∧ aluControlCode .or = 0b0001#4 ∧ aluControlCode .add = 0b0010#4 ∧
  aluControlCode .sub = 0b0110#4 ∧ aluControlCode .slt = 0b0111#4 ∧
  (∀ (p : BitVec 2) (op : ALUOp), aluOpOfPort p = some op ↔ aluOpPort op = p) ∧
  (∀ (p : BitVec 4) (a : ALUControl), aluControlOfCode p = some a ↔ aluControlCode a = p)

/-- The `err` port and the signal ports: `err` is 0b01 or 0b10 on the two failures, 0b00 on a success and never 0b11, and
signals are exposed exactly when it is 0b00. Those exposed carry the vector: the seven 1-bit signals from `RegDst` (bit 6)
to `Branch` (bit 0), the two port codes, and the `Jump` bit where the vector has one (R40). -/
def Obligations.ErrPortGatesSignalPorts : Prop :=
  ∀ r : Result ControlSignals,
    (errPort r = 0b00#2 ↔ ∃ v, r = .ok v) ∧
    (errPort r = 0b01#2 ↔ ∃ x, r = .err (.unsupportedOpcode x)) ∧
    (errPort r = 0b10#2 ↔ ∃ x, r = .err (.unsupportedFunctionCode x)) ∧
    errPort r ≠ 0b11#2 ∧ ((signalPorts r).isSome = true ↔ errPort r = 0b00#2) ∧
    ∀ (c : ControlSignals) (p : SignalPorts), r = .ok c → signalPorts r = some p →
      p.signals.getLsbD 6 = c.regDst ∧ p.signals.getLsbD 5 = c.aluSrc ∧ p.signals.getLsbD 4 = c.memToReg ∧
      p.signals.getLsbD 3 = c.regWrite ∧ p.signals.getLsbD 2 = c.memWrite ∧ p.signals.getLsbD 1 = c.memRead ∧
      p.signals.getLsbD 0 = c.branch ∧ p.aluOp = aluOpPort c.aluOp ∧ p.aluControl = aluControlCode c.aluControl ∧
      p.jump = match c.jump with
        | none => none
        | some false => some 0#1
        | some true => some 1#1

/-- At its ports the sub-decode refuses `ALUOp` 0b11 and answers every other code as the enumeration does, and the main
decode never presents 0b11 (R132). -/
def Obligations.StandaloneAluControlRefusesFourthCode : Prop :=
  (∀ f : FunctionCode, aluControlPort 0b11#2 f = .refused (.aluOpOutOfDomain 0b11#2)) ∧
  (∀ (op : ALUOp) (f : FunctionCode), aluControlPort (aluOpPort op) f = .next (aluControl op f)) ∧
  (∀ (c : Config) (op : Opcode) (m : MainSignals), mainDecode c op = .ok m → aluOpPort m.aluOp ≠ 0b11#2)

/-! ### Encoding -/

/-- Decoding the word of any instruction gives that instruction, with every operand at every value, from the word, from
its bytes in either order, and through the table's numbering. -/
def Obligations.DecodeOfEncodeIsIdentity : Prop :=
  ∀ i : Instr, decode (encode i) = .ok i ∧
    (∀ order : ByteOrder, decodeBytes order (bytesOfWord order (encode i)) = .ok i) ∧
    decodeTableWord 32 (encode i).toNat = some i

/-- Encoding what a word decodes to gives that word: no bit of a recognised word is dropped. -/
def Obligations.EncodeOfDecodeIsIdentity : Prop :=
  ∀ (w : Word) (i : Instr), decode w = .ok i → encode i = w

/-- A word decodes to an instruction exactly when it matches that instruction's row of the opcode table. For the J row,
which the table applies only with `JUMP_ENABLED`, this is the model's choice: the word decoder reads it under every
configuration, and the Control Unit decides whether J is recognised (log entry 16, DESIGN CHOICE). -/
def Obligations.DecodeMatchesTableMasks : Prop :=
  ∀ w : Word,
    ((∃ rs rt rd sh, decode w = .ok (.add rs rt rd sh)) ↔ w &&& 0xFC00003F#32 = 0x00000020#32) ∧
    ((∃ rs rt rd sh, decode w = .ok (.sub rs rt rd sh)) ↔ w &&& 0xFC00003F#32 = 0x00000022#32) ∧
    ((∃ rs rt rd sh, decode w = .ok (.and rs rt rd sh)) ↔ w &&& 0xFC00003F#32 = 0x00000024#32) ∧
    ((∃ rs rt rd sh, decode w = .ok (.or rs rt rd sh)) ↔ w &&& 0xFC00003F#32 = 0x00000025#32) ∧
    ((∃ rs rt rd sh, decode w = .ok (.slt rs rt rd sh)) ↔ w &&& 0xFC00003F#32 = 0x0000002A#32) ∧
    ((∃ rs rt imm, decode w = .ok (.lw rs rt imm)) ↔ w &&& 0xFC000000#32 = 0x8C000000#32) ∧
    ((∃ rs rt imm, decode w = .ok (.sw rs rt imm)) ↔ w &&& 0xFC000000#32 = 0xAC000000#32) ∧
    ((∃ rs rt imm, decode w = .ok (.beq rs rt imm)) ↔ w &&& 0xFC000000#32 = 0x10000000#32) ∧
    ((∃ target, decode w = .ok (.j target)) ↔ w &&& 0xFC000000#32 = 0x08000000#32)

/-- The decoder and the Control Unit agree on every word: the decoder's rejection is the Control Unit's failure, and the
Control Unit accepts a decoded instruction exactly when the configuration recognises it (R75 to R77, R80). -/
def Obligations.DecoderAgreesWithControlUnit : Prop :=
  ∀ (c : Config) (w : Word),
    (∀ e, decode w = .err e → controlUnit c (opcodeOf w) (functOf w) = .err e) ∧
    (∀ i, decode w = .ok i →
      ((∃ v, controlUnit c (opcodeOf w) (functOf w) = .ok v) ↔ i.wellFormed c = true))

/-- One word of each instruction, from the spec's examples (R151 to R159), decodes to that instruction, and three words
fail. That the J word decodes whatever `JUMP_ENABLED` is, is the model's choice: without it the spec gives
`UnsupportedOpcode(0x02)` (R159, V18), which J's meaning answers (log entry 16, DESIGN CHOICE). -/
def Obligations.SampleWordsDecode : Prop :=
  decode 0x01095020#32 = .ok (.add 8#5 9#5 10#5 0#5) ∧ decode 0x01095822#32 = .ok (.sub 8#5 9#5 11#5 0#5) ∧
  decode 0x01095024#32 = .ok (.and 8#5 9#5 10#5 0#5) ∧ decode 0x01095025#32 = .ok (.or 8#5 9#5 10#5 0#5) ∧
  decode 0x0109502A#32 = .ok (.slt 8#5 9#5 10#5 0#5) ∧ decode 0x8E080004#32 = .ok (.lw 16#5 8#5 4#16) ∧
  decode 0xAE080008#32 = .ok (.sw 16#5 8#5 8#16) ∧ decode 0x11090002#32 = .ok (.beq 8#5 9#5 2#16) ∧
  decode 0x08000100#32 = .ok (.j 0x100#26) ∧
  decode 0x00000000#32 = .err (.unsupportedFunctionCode 0#6) ∧
  decode 0x20080005#32 = .err (.unsupportedOpcode 0x08#6) ∧
  decode 0xFFFFFFFF#32 = .err (.unsupportedOpcode 0x3F#6)

/-! ### The reference ALU -/

/-- The ALU adds and subtracts modulo 2^32 (R134, R135). -/
def Obligations.AluAddsAndSubtractsModulo : Prop :=
  ∀ a b : Word,
    (aluResult .add a b).toNat = (a.toNat + b.toNat) % 2 ^ 32 ∧
    ((aluResult .sub a b).toNat : Int) = ((a.toNat : Int) - (b.toNat : Int)) % 2 ^ 32

/-- The ALU's AND and OR are bitwise over 32 bits (R136, R137). -/
def Obligations.AluAndOrAreBitwise : Prop :=
  ∀ (a b : Word) (k : Nat), k < 32 →
    (aluResult .and a b).getLsbD k = (a.getLsbD k && b.getLsbD k) ∧
    (aluResult .or a b).getLsbD k = (a.getLsbD k || b.getLsbD k)

/-- Set-less-than compares two's-complement signed integers (R138). -/
def Obligations.AluSetLessThanIsSigned : Prop :=
  ∀ a b : Word, aluResult .slt a b = if signedValue a < signedValue b then 1#32 else 0#32

/-- The zero flag is 1 exactly on the result 0, and after a subtraction exactly on equal operands (R139). -/
def Obligations.ZeroFlagTellsEquality : Prop :=
  (∀ result : Word, zeroFlag result = true ↔ result = 0#32) ∧
  (∀ a b : Word, zeroFlag (aluResult .sub a b) = true ↔ a = b)

/-! ### Registers and memory -/

/-- `x[0]` reads 0 and a write to it is discarded; any other register reads what was written last, and a write leaves the
others alone (R163). -/
def Obligations.RegisterZeroIsHardWired : Prop :=
  ∀ (regs : Vector Word 32) (r q : RegIndex) (v : Word),
    getReg regs 0#5 = 0#32 ∧ setReg regs 0#5 v = regs ∧
    getReg (setReg regs r v) q = if q = r ∧ r ≠ 0#5 then v else getReg regs q

/-- A stored word lies in its four bytes, its least significant byte first or last as `BYTE_ORDER` says, and every other
byte is as before. -/
def Obligations.StoreLaysBytesInOrder : Prop :=
  ∀ (m : Memory) (a v : Word),
    (∀ k : Nat, k < 4 →
      (byteAt (storeWord .little m a v) (a.toNat + k)).map BitVec.toNat = some (v.toNat / 256 ^ k % 256) ∧
      (byteAt (storeWord .big m a v) (a.toNat + k)).map BitVec.toNat = some (v.toNat / 256 ^ (3 - k) % 256)) ∧
    (∀ (order : ByteOrder) (b : Nat), b < a.toNat ∨ a.toNat + 4 ≤ b →
      byteAt (storeWord order m a v) b = byteAt m b)

/-- A load sees the most recent store to the same word and is untouched by a store to another (R57). -/
def Obligations.LoadSeesMostRecentStore : Prop :=
  ∀ (order : ByteOrder) (m : Memory) (a b v : Word) (draw : Nat), aligned a = true → aligned b = true →
    loadWord order (storeWord order m a v) draw b = if b = a then v else loadWord order m draw b

/-- Two stores to different words of a memory in canonical form give the same memory in either order. -/
def Obligations.StoresToDifferentWordsCommute : Prop :=
  ∀ (order : ByteOrder) (m : Memory) (a b v u : Word), m.wf = true → aligned a = true → aligned b = true → a ≠ b →
    storeWord order (storeWord order m a v) b u = storeWord order (storeWord order m b u) a v

/-- What a load reads does not depend on the draw exactly where the word is written: a written word is read as it is and
no draw is used up, and a word with an unwritten byte uses up one. -/
def Obligations.LoadOfWrittenWordDrawsNothing : Prop :=
  ∀ (order : ByteOrder) (m : Memory) (a : Word) (draw : Nat),
    (∀ w, writtenWord order m a = some w →
      loadWord order m draw a = w ∧ drawsAfterLoad order m draw a = draw) ∧
    (writtenWord order m a = none → drawsAfterLoad order m draw a = draw + 1)

/-! ### What each instruction does -/

/-- ADD (R151): for every state and operands, `x[rd] <- x[rs] + x[rt]`, pc + 4, and nothing else; the Control Unit's
output is the rule's. -/
def Obligations.AddExecutes : Prop :=
  ∀ (s : State) (rs rt rd : RegIndex) (sh : BitVec 5), exec (.add rs rt rd sh) s = .next
    { s with
      regs := setReg s.regs rd (getReg s.regs rs + getReg s.regs rt)
      pc := s.pc + 4#32
      output := some (.ok (rTypeVector s.config .add)) }

/-- SUB (R152). -/
def Obligations.SubExecutes : Prop :=
  ∀ (s : State) (rs rt rd : RegIndex) (sh : BitVec 5), exec (.sub rs rt rd sh) s = .next
    { s with
      regs := setReg s.regs rd (getReg s.regs rs - getReg s.regs rt)
      pc := s.pc + 4#32
      output := some (.ok (rTypeVector s.config .sub)) }

/-- AND (R153). -/
def Obligations.AndExecutes : Prop :=
  ∀ (s : State) (rs rt rd : RegIndex) (sh : BitVec 5), exec (.and rs rt rd sh) s = .next
    { s with
      regs := setReg s.regs rd (getReg s.regs rs &&& getReg s.regs rt)
      pc := s.pc + 4#32
      output := some (.ok (rTypeVector s.config .and)) }

/-- OR (R154). -/
def Obligations.OrExecutes : Prop :=
  ∀ (s : State) (rs rt rd : RegIndex) (sh : BitVec 5), exec (.or rs rt rd sh) s = .next
    { s with
      regs := setReg s.regs rd (getReg s.regs rs ||| getReg s.regs rt)
      pc := s.pc + 4#32
      output := some (.ok (rTypeVector s.config .or)) }

/-- SLT (R155), the comparison signed. -/
def Obligations.SltExecutes : Prop :=
  ∀ (s : State) (rs rt rd : RegIndex) (sh : BitVec 5), exec (.slt rs rt rd sh) s = .next
    { s with
      regs := setReg s.regs rd
        (if signedValue (getReg s.regs rs) < signedValue (getReg s.regs rt) then 1#32 else 0#32)
      pc := s.pc + 4#32
      output := some (.ok (rTypeVector s.config .slt)) }

/-- LW (R156). The Control Unit's output is the rule's for every function code; and at an address that is a multiple of 4
and in the address map `x[rt]` is the loaded word, pc + 4, and nothing else changes but the count of draws. What an unwritten byte gives is free
(I17, log entry 9). -/
def Obligations.LwLoadsAlignedWord : Prop :=
  (∀ (c : Config) (f : FunctionCode), controlUnit c 0x23#6 f = .ok (lwVector c)) ∧
  ∀ (s : State) (rs rt : RegIndex) (imm : BitVec 16), accessible s.config (effectiveAddress s rs imm) = true →
    exec (.lw rs rt imm) s = .next
      { s with
        regs := setReg s.regs rt (loadWord s.config.byteOrder s.dmem s.draws (effectiveAddress s rs imm))
        pc := s.pc + 4#32
        output := some (.ok (lwVector s.config))
        draws := drawsAfterLoad s.config.byteOrder s.dmem s.draws (effectiveAddress s rs imm) }

/-- SW (R157). The Control Unit's output is the rule's for every function code; and at an address that is a multiple of 4
and in the address map the word `x[rt]` is stored there, pc + 4, and nothing else changes. -/
def Obligations.SwStoresAlignedWord : Prop :=
  (∀ (c : Config) (f : FunctionCode), controlUnit c 0x2B#6 f = .ok (swVector c)) ∧
  ∀ (s : State) (rs rt : RegIndex) (imm : BitVec 16), accessible s.config (effectiveAddress s rs imm) = true →
    exec (.sw rs rt imm) s = .next
      { s with
        dmem := storeWord s.config.byteOrder s.dmem (effectiveAddress s rs imm) (getReg s.regs rt)
        pc := s.pc + 4#32
        output := some (.ok (swVector s.config)) }

/-- LW and SW at an address that is not a multiple of 4 are refused (R52, R164), and so is one at a multiple of 4 outside
the address map (R54: the model's stop, log entry 12); the refusal names the address. -/
def Obligations.MisalignedOrUnmappedAccessIsRefused : Prop :=
  ∀ (s : State) (rs rt : RegIndex) (imm : BitVec 16),
    ((effectiveAddress s rs imm).toNat % 4 ≠ 0 →
      exec (.lw rs rt imm) s = .refused (.misalignedAccess (effectiveAddress s rs imm)) ∧
      exec (.sw rs rt imm) s = .refused (.misalignedAccess (effectiveAddress s rs imm))) ∧
    ((effectiveAddress s rs imm).toNat % 4 = 0 →
      mappedWord s.config.addressMap.data (effectiveAddress s rs imm) = false →
      exec (.lw rs rt imm) s = .refused (.unmappedAccess (effectiveAddress s rs imm)) ∧
      exec (.sw rs rt imm) s = .refused (.unmappedAccess (effectiveAddress s rs imm)))

/-- BEQ (R158): for every state and operands the pc goes to the target when the registers are equal and to the next word
when not, and nothing else changes. -/
def Obligations.BeqBranchesOnEqual : Prop :=
  ∀ (s : State) (rs rt : RegIndex) (imm : BitVec 16), exec (.beq rs rt imm) s = .next
    { s with
      pc := if getReg s.regs rs = getReg s.regs rt then s.pc + 4#32 + (imm.signExtend 32 <<< 2)
            else s.pc + 4#32
      output := some (.ok (beqVector s.config)) }

/-- J (R159): with `JUMP_ENABLED` the pc becomes the top four bits of pc + 4, the target and two zero bits, and nothing
else changes; without it the failure `UnsupportedOpcode(0x02)` is taken. -/
def Obligations.JumpExecutesWhenEnabled : Prop :=
  ∀ (s : State) (target : BitVec 26),
    (s.config.jumpEnabled = true → exec (.j target) s = .next
      { s with
        pc := BitVec.ofNat 32 ((s.pc + 4#32).toNat / 2 ^ 28 * 2 ^ 28 + target.toNat * 4)
        output := some (.ok jVector) }) ∧
    (s.config.jumpEnabled = false → exec (.j target) s = .next (takeFailure (.unsupportedOpcode 0x02#6) s))

/-- A store by SW is read back by a later LW of the same address, into any register but `x[0]`. -/
def Obligations.StoreThenLoadReturnsValue : Prop :=
  ∀ (s t u : State) (rs rt rb rd : RegIndex) (imm off : BitVec 16),
    exec (.sw rs rt imm) s = .next t → effectiveAddress t rb off = effectiveAddress s rs imm →
    exec (.lw rb rd off) t = .next u → rd ≠ 0#5 →
    getReg u.regs rd = getReg s.regs rt ∧ u.draws = s.draws

/-- The R-type instructions do not depend on `shamt` (R81). -/
def Obligations.ShamtHasNoEffect : Prop :=
  ∀ (s : State) (rs rt rd : RegIndex) (sh sh' : BitVec 5),
    exec (.add rs rt rd sh) s = exec (.add rs rt rd sh') s ∧ exec (.sub rs rt rd sh) s = exec (.sub rs rt rd sh') s ∧
    exec (.and rs rt rd sh) s = exec (.and rs rt rd sh') s ∧ exec (.or rs rt rd sh) s = exec (.or rs rt rd sh') s ∧
    exec (.slt rs rt rd sh) s = exec (.slt rs rt rd sh') s

/-! ### Frames -/

/-- ADD, SUB, AND, OR and SLT change no register but `rd`, no memory byte, and nothing else but the pc and the output. -/
def Obligations.RTypeFrame : Prop :=
  ∀ (s t : State) (i : Instr) (rs rt rd : RegIndex) (sh : BitVec 5),
    (i = .add rs rt rd sh ∨ i = .sub rs rt rd sh ∨ i = .and rs rt rd sh ∨ i = .or rs rt rd sh ∨ i = .slt rs rt rd sh) →
    exec i s = .next t →
    keepsRegsBut rd s t ∧ keepsData s t ∧ keepsTheRest s t ∧ t.draws = s.draws

/-- LW changes no register but `rt`, no memory byte, and nothing else but the pc, the output and the count of draws. -/
def Obligations.LwFrame : Prop :=
  ∀ (s t : State) (rs rt : RegIndex) (imm : BitVec 16), exec (.lw rs rt imm) s = .next t →
    keepsRegsBut rt s t ∧ keepsData s t ∧ keepsTheRest s t

/-- SW changes no register and no memory byte outside the four at `x[rs] + sext_32(imm)`, and nothing else but the pc and
the output. -/
def Obligations.SwFrame : Prop :=
  ∀ (s t : State) (rs rt : RegIndex) (imm : BitVec 16), exec (.sw rs rt imm) s = .next t →
    keepsRegs s t ∧ keepsTheRest s t ∧ t.draws = s.draws ∧
    ∀ b : Nat, b < (effectiveAddress s rs imm).toNat ∨ (effectiveAddress s rs imm).toNat + 4 ≤ b →
      byteAt t.dmem b = byteAt s.dmem b

/-- BEQ and an enabled J change no register and no memory byte, and nothing else but the pc and the output; a disabled J
changes no register and no memory either. -/
def Obligations.BranchAndJumpFrame : Prop :=
  ∀ (s t : State) (rs rt : RegIndex) (imm : BitVec 16) (target : BitVec 26),
    (exec (.beq rs rt imm) s = .next t →
      keepsRegs s t ∧ keepsData s t ∧ keepsTheRest s t ∧ t.draws = s.draws) ∧
    (exec (.j target) s = .next t →
      keepsRegs s t ∧ keepsData s t ∧ t.imem = s.imem ∧ t.config = s.config ∧ t.draws = s.draws ∧
      (s.config.jumpEnabled = true → keepsTheRest s t))

/-! ### Failures -/

/-- Under `halt` a word on which the Control Unit fails sets `halted`, keeps the pc at that word and changes no register
or memory; the failure is the diagnostic (R165). -/
def Obligations.FailureHaltsUnderHaltPolicy : Prop :=
  ∀ (s : State) (w : Word) (e : Failure), s.config.unsupportedPolicy = .halt → fetch s = .next w →
    controlUnit s.config (opcodeOf w) (functOf w) = .err e →
    step s = .next { s with halted := true, diagnostic := some e, output := some (.err e) }

/-- Under `report_and_skip` such a word has no effect, the failure is reported, and the machine goes on (R186); that it
goes on at the next word is the model's reading (log entry 13). -/
def Obligations.FailureIsSkippedUnderSkipPolicy : Prop :=
  ∀ (s : State) (w : Word) (e : Failure), s.config.unsupportedPolicy = .reportAndSkip → fetch s = .next w →
    controlUnit s.config (opcodeOf w) (functOf w) = .err e →
    step s = .next { s with pc := s.pc + 4#32, diagnostic := some e, output := some (.err e) }

/-! ### The step -/

/-- When the four bytes at the pc decode to an instruction, a running machine's step is that instruction's meaning. -/
def Obligations.StepRunsDecodedInstruction : Prop :=
  ∀ (s : State) (w : Word) (i : Instr), s.halted = false → s.config.programEnd ≠ some s.pc → aligned s.pc = true →
    mappedWord s.config.addressMap.instruction s.pc = true →
    writtenWord s.config.byteOrder s.imem s.pc = some w → decode w = .ok i → step s = exec i s

/-- No step is taken past the end of the run, from an unaligned pc, outside the address map, or where no instruction is
loaded: each stops under a name of its own (R166, R52, R54, R163; the model's stops, log entries 6, 7, 8, 11 and 12). -/
def Obligations.StepStopsWhereNothingRuns : Prop :=
  ∀ s : State,
    (s.halted = true → step s = .fault .halted) ∧
    (s.halted = false → s.config.programEnd = some s.pc → step s = .fault (.programEnded s.pc)) ∧
    (s.halted = false → s.config.programEnd ≠ some s.pc → aligned s.pc = false →
      step s = .refused (.misalignedFetch s.pc)) ∧
    (s.halted = false → s.config.programEnd ≠ some s.pc → aligned s.pc = true →
      mappedWord s.config.addressMap.instruction s.pc = false → step s = .refused (.unmappedFetch s.pc)) ∧
    (s.halted = false → s.config.programEnd ≠ some s.pc → aligned s.pc = true →
      mappedWord s.config.addressMap.instruction s.pc = true →
      writtenWord s.config.byteOrder s.imem s.pc = none → step s = .fault (.noInstruction s.pc))

/-- The machine refines the spec's single-cycle picture: a step, which dispatches on the decoded instruction, is exactly
one cycle of the datapath under the Control Unit's answer to the raw fields of the fetched word (R150, R164 to R166). -/
def Obligations.StepIsOneControlUnitCycle : Prop :=
  ∀ (s : State) (w : Word), fetch s = .next w →
    step s = consume (controlUnit s.config (opcodeOf w) (functOf w)) (fieldsOf w) s

/-- Every step that goes on leaves the Control Unit's result on the fetched word as the output: a fresh evaluation on that
word's fields, whatever the earlier state (R213, R214). -/
def Obligations.StepOutputsItsOwnDecode : Prop :=
  ∀ (s t : State) (w : Word), fetch s = .next w → step s = .next t →
    t.output = some (controlUnit s.config (opcodeOf w) (functOf w))

/-- From every state that meets the invariant, a step gives a state that meets it. -/
def Obligations.StepKeepsInvariant : Prop :=
  ∀ s t : State, s.Inv → step s = .next t → t.Inv

/-- No step writes the instruction memory or changes the configuration (R163, R212). -/
def Obligations.StepKeepsProgramAndConfiguration : Prop :=
  ∀ s t : State, step s = .next t → t.imem = s.imem ∧ t.config = s.config

/-- Only SW writes data memory, only the R-type instructions and LW write registers, and only a word on which the Control
Unit fails changes `halted` or the diagnostic. -/
def Obligations.OnlyTheRightInstructionsWrite : Prop :=
  ∀ (s t : State) (w : Word), fetch s = .next w → step s = .next t →
    (opcodeOf w ≠ 0x2B#6 → t.dmem = s.dmem) ∧
    (opcodeOf w ≠ 0x00#6 → opcodeOf w ≠ 0x23#6 → t.regs = s.regs) ∧
    ((∃ v, controlUnit s.config (opcodeOf w) (functOf w) = .ok v) →
      t.halted = s.halted ∧ t.diagnostic = s.diagnostic)

/-- A step halts the machine exactly when the Control Unit fails on the fetched word and the policy is `halt`. -/
def Obligations.OnlyUnrecognisedWordsHalt : Prop :=
  ∀ (s t : State) (w : Word), fetch s = .next w → step s = .next t →
    (t.halted = true ↔
      s.config.unsupportedPolicy = .halt ∧ ∃ e, controlUnit s.config (opcodeOf w) (functOf w) = .err e)

/-- Every next pc is a multiple of 4 when the pc is (R166). -/
def Obligations.NextPcStaysAligned : Prop :=
  ∀ (c : ControlSignals) (f : Fields) (result pc : Word), pc.toNat % 4 = 0 →
    (nextPc c f result pc).toNat % 4 = 0

/-- A recognised instruction, fetched, always completes with a signal vector as output, but for a load or store at an
address that is not a multiple of 4 or not in the address map. -/
def Obligations.RecognisedInstructionsComplete : Prop :=
  ∀ (s : State) (w : Word) (i : Instr), fetch s = .next w → decode w = .ok i → i.wellFormed s.config = true →
    (∀ rs rt imm, i = .lw rs rt imm ∨ i = .sw rs rt imm → accessible s.config (effectiveAddress s rs imm) = true) →
    ∃ t v, step s = .next t ∧ t.output = some (.ok v) ∧ t.halted = false ∧ safeStep s = true

/-- Only LW reads data memory. Put any other data memory `m` under a step of a word other than LW: the next state is the
same in every other field, and its data memory is `m` with the very word stored that SW stores, `x[rt]` at
`x[rs] + sext_32(imm)`, or `m` as it is where the word is not SW. -/
def Obligations.DataMemoryIsReadByLwOnly : Prop :=
  ∀ (s t : State) (w : Word) (m : Memory), fetch s = .next w → opcodeOf w ≠ 0x23#6 → step s = .next t →
    step { s with dmem := m } = .next
      { t with
        dmem :=
          if opcodeOf w = 0x2B#6 then
            storeWord s.config.byteOrder m (effectiveAddress s (rsOf w) (immOf w)) (getReg s.regs (rtOf w))
          else m }

/-- A word placed with `withFetchWord` is the very next instruction the machine fetches, from any state (log entry 18). -/
def Obligations.PlacedWordIsFetchedNext : Prop :=
  ∀ (s : State) (w : Word), fetch (s.withFetchWord 32 w.toNat) = .next w
end

