-- ==== Sys2Proof/Laws/ControlUnit.lean ====
section
/-! SUPPORT. The Control Unit's result for each opcode, one lemma per table entry. -/

namespace Sys2Proof.Machine

section

variable (c : Config) (f : FunctionCode)

@[simp] theorem mainDecode_rType : mainDecode c 0x00#6 = .ok (mainRType c) := rfl
@[simp] theorem mainDecode_lw : mainDecode c 0x23#6 = .ok (mainLw c) := rfl
@[simp] theorem mainDecode_sw : mainDecode c 0x2B#6 = .ok (mainSw c) := rfl
@[simp] theorem mainDecode_beq : mainDecode c 0x04#6 = .ok (mainBeq c) := rfl

theorem mainDecode_j (h : c.jumpEnabled = true) : mainDecode c 0x02#6 = .ok (mainJ c) := by
  simp [mainDecode, mainTable, h, tableEntry]

theorem mainDecode_j_disabled (h : c.jumpEnabled = false) :
    mainDecode c 0x02#6 = .err (.unsupportedOpcode 0x02#6) := by
  simp [mainDecode, mainTable, h, tableEntry]

/-- The composed result of an opcode with a fixed ALU operation does not look at the function code. -/
theorem controlUnit_lw : controlUnit c 0x23#6 f = .ok { toMainSignals := mainLw c, aluControl := .add } := rfl
theorem controlUnit_sw : controlUnit c 0x2B#6 f = .ok { toMainSignals := mainSw c, aluControl := .add } := rfl
theorem controlUnit_beq : controlUnit c 0x04#6 f = .ok { toMainSignals := mainBeq c, aluControl := .sub } := rfl

theorem controlUnit_j (h : c.jumpEnabled = true) :
    controlUnit c 0x02#6 f = .ok { toMainSignals := mainJ c, aluControl := .add } := by
  simp [controlUnit, mainDecode_j c h, Result.andThen, aluControl, mainJ]

theorem controlUnit_j_disabled (h : c.jumpEnabled = false) :
    controlUnit c 0x02#6 f = .err (.unsupportedOpcode 0x02#6) := by
  simp [controlUnit, mainDecode_j_disabled c h, Result.andThen]

/-- Under the R-type opcode the result is the function-code table's. -/
theorem controlUnit_rType : controlUnit c 0x00#6 f =
    (aluControl .funct f).andThen fun a => .ok { toMainSignals := mainRType c, aluControl := a } := rfl

end

/-- A table lookup succeeds only with an entry of the table. -/
theorem tableEntry_mem {α : Type} {key : BitVec 6} {table : List (BitVec 6 × α)} {v : α}
    (h : tableEntry key table = some v) : (key, v) ∈ table := by
  induction table with
  | nil => cases h
  | cons e rest ih =>
    obtain ⟨k, u⟩ := e
    unfold tableEntry at h
    split at h
    · rename_i hk
      subst hk
      cases h
      exact .head _
    · exact .tail _ (ih h)

/-- Everything a success of the main decode can be. -/
theorem mainDecode_cases {c : Config} {op : Opcode} {m : MainSignals} (h : mainDecode c op = .ok m) :
    (op = 0x00#6 ∧ m = mainRType c) ∨ (op = 0x23#6 ∧ m = mainLw c) ∨ (op = 0x2B#6 ∧ m = mainSw c) ∨
    (op = 0x04#6 ∧ m = mainBeq c) ∨ (op = 0x02#6 ∧ m = mainJ c ∧ c.jumpEnabled = true) := by
  unfold mainDecode at h
  split at h
  · rename_i m' hm
    cases h
    have hmem := tableEntry_mem hm
    cases hj : c.jumpEnabled <;> simp [mainTable, hj] at hmem <;> tauto
  · cases h

/-- Every main tuple has a `Jump` field exactly when `JUMP_ENABLED` is true. -/
theorem mainDecode_jump {c : Config} {op : Opcode} {m : MainSignals} (h : mainDecode c op = .ok m) :
    m.jump.isSome = c.jumpEnabled := by
  rcases mainDecode_cases h with ⟨-, rfl⟩ | ⟨-, rfl⟩ | ⟨-, rfl⟩ | ⟨-, rfl⟩ | ⟨-, rfl, -⟩ <;>
    cases hj : c.jumpEnabled <;> simp [mainRType, mainLw, mainSw, mainBeq, mainJ, jumpField, hj]

/-- What a composed success came from. -/
theorem controlUnit_ok {c : Config} {op : Opcode} {f : FunctionCode} {r : ControlSignals}
    (h : controlUnit c op f = .ok r) :
    mainDecode c op = .ok r.toMainSignals ∧ aluControl r.aluOp f = .ok r.aluControl := by
  unfold controlUnit Result.andThen at h
  split at h
  · rename_i m hm
    dsimp only at h
    split at h
    · rename_i a ha
      cases h
      exact ⟨hm, ha⟩
    · cases h
  · cases h

end Sys2Proof.Machine
end

