-- ==== Sys2Proof/Laws/Encoding.lean ====
section
/-! SUPPORT. The fields of encoded words, words put together from their fields, and words as bytes. A field is compared
bit by bit: which part of a concatenation a bit falls in is arithmetic on its index. -/

namespace Sys2Proof

section Fields

variable (rs rt rd : RegIndex) (shamt : BitVec 5) (funct : FunctionCode) (opcode : Opcode) (imm : BitVec 16)
  (target : BitVec 26) (w : Word)

/-- Every field of an R-format word is the one it was made from. -/
theorem encodeR_fields :
    opcodeOf (encodeR rs rt rd shamt funct) = 0x00#6 ∧ rsOf (encodeR rs rt rd shamt funct) = rs ∧
    rtOf (encodeR rs rt rd shamt funct) = rt ∧ rdOf (encodeR rs rt rd shamt funct) = rd ∧
    shamtOf (encodeR rs rt rd shamt funct) = shamt ∧ functOf (encodeR rs rt rd shamt funct) = funct := by
  refine ⟨?_, ?_, ?_, ?_, ?_, ?_⟩ <;>
  · apply BitVec.eq_of_getLsbD_eq; intro i hi
    simp only [opcodeOf, rsOf, rtOf, rdOf, shamtOf, functOf, encodeR, BitVec.getLsbD_extractLsb',
      BitVec.getLsbD_cast, BitVec.getLsbD_append, hi, decide_true, Bool.true_and]
    (repeat' split) <;> first | omega | (congr 1; omega)

@[simp] theorem opcodeOf_encodeR : opcodeOf (encodeR rs rt rd shamt funct) = 0x00#6 := (encodeR_fields ..).1
@[simp] theorem rsOf_encodeR : rsOf (encodeR rs rt rd shamt funct) = rs := (encodeR_fields ..).2.1
@[simp] theorem rtOf_encodeR : rtOf (encodeR rs rt rd shamt funct) = rt := (encodeR_fields ..).2.2.1
@[simp] theorem rdOf_encodeR : rdOf (encodeR rs rt rd shamt funct) = rd := (encodeR_fields ..).2.2.2.1
@[simp] theorem shamtOf_encodeR : shamtOf (encodeR rs rt rd shamt funct) = shamt := (encodeR_fields ..).2.2.2.2.1
@[simp] theorem functOf_encodeR : functOf (encodeR rs rt rd shamt funct) = funct := (encodeR_fields ..).2.2.2.2.2

/-- Every field of an I-format word is the one it was made from; its function code is the immediate's low six bits. -/
theorem encodeI_fields :
    opcodeOf (encodeI opcode rs rt imm) = opcode ∧ rsOf (encodeI opcode rs rt imm) = rs ∧
    rtOf (encodeI opcode rs rt imm) = rt ∧ immOf (encodeI opcode rs rt imm) = imm ∧
    functOf (encodeI opcode rs rt imm) = imm.extractLsb' 0 6 := by
  refine ⟨?_, ?_, ?_, ?_, ?_⟩ <;>
  · apply BitVec.eq_of_getLsbD_eq; intro i hi
    simp only [opcodeOf, rsOf, rtOf, immOf, functOf, encodeI, BitVec.getLsbD_extractLsb', BitVec.getLsbD_cast,
      BitVec.getLsbD_append, hi, decide_true, Bool.true_and]
    (repeat' split) <;> first | omega | rfl | (congr 1; omega)

@[simp] theorem opcodeOf_encodeI : opcodeOf (encodeI opcode rs rt imm) = opcode := (encodeI_fields ..).1
@[simp] theorem rsOf_encodeI : rsOf (encodeI opcode rs rt imm) = rs := (encodeI_fields ..).2.1
@[simp] theorem rtOf_encodeI : rtOf (encodeI opcode rs rt imm) = rt := (encodeI_fields ..).2.2.1
@[simp] theorem immOf_encodeI : immOf (encodeI opcode rs rt imm) = imm := (encodeI_fields ..).2.2.2.1
@[simp] theorem functOf_encodeI : functOf (encodeI opcode rs rt imm) = imm.extractLsb' 0 6 :=
  (encodeI_fields ..).2.2.2.2

/-- Every field of a J-format word is the one it was made from; its function code is the target's low six bits. -/
theorem encodeJ_fields :
    opcodeOf (encodeJ target) = 0x02#6 ∧ targetOf (encodeJ target) = target ∧
    functOf (encodeJ target) = target.extractLsb' 0 6 := by
  refine ⟨?_, ?_, ?_⟩ <;>
  · apply BitVec.eq_of_getLsbD_eq; intro i hi
    simp only [opcodeOf, targetOf, functOf, encodeJ, BitVec.getLsbD_extractLsb', BitVec.getLsbD_cast,
      BitVec.getLsbD_append, hi, decide_true, Bool.true_and]
    (repeat' split) <;> first | omega | rfl | (congr 1; omega)

@[simp] theorem opcodeOf_encodeJ : opcodeOf (encodeJ target) = 0x02#6 := (encodeJ_fields ..).1
@[simp] theorem targetOf_encodeJ : targetOf (encodeJ target) = target := (encodeJ_fields ..).2.1
@[simp] theorem functOf_encodeJ : functOf (encodeJ target) = target.extractLsb' 0 6 := (encodeJ_fields ..).2.2

/-- A word is its R-format fields put together. -/
theorem word_of_r_fields :
    (opcodeOf w ++ rsOf w ++ rtOf w ++ rdOf w ++ shamtOf w ++ functOf w).cast rfl = w := by
  apply BitVec.eq_of_getLsbD_eq; intro i hi
  simp only [opcodeOf, rsOf, rtOf, rdOf, shamtOf, functOf, BitVec.getLsbD_extractLsb', BitVec.getLsbD_cast,
    BitVec.getLsbD_append]
  (repeat' split) <;> (rw [decide_eq_true (by omega), Bool.true_and]; congr 1; omega)

/-- A word is its I-format fields put together. -/
theorem word_of_i_fields : (opcodeOf w ++ rsOf w ++ rtOf w ++ immOf w).cast rfl = w := by
  apply BitVec.eq_of_getLsbD_eq; intro i hi
  simp only [opcodeOf, rsOf, rtOf, immOf, BitVec.getLsbD_extractLsb', BitVec.getLsbD_cast,
    BitVec.getLsbD_append]
  (repeat' split) <;> (rw [decide_eq_true (by omega), Bool.true_and]; congr 1; omega)

/-- A word is its J-format fields put together. -/
theorem word_of_j_fields : (opcodeOf w ++ targetOf w).cast rfl = w := by
  apply BitVec.eq_of_getLsbD_eq; intro i hi
  simp only [opcodeOf, targetOf, BitVec.getLsbD_extractLsb', BitVec.getLsbD_cast, BitVec.getLsbD_append]
  split <;> (rw [decide_eq_true (by omega), Bool.true_and]; congr 1; omega)

end Fields

/-- A word's bytes, put together in the order they were taken apart in, are the word. -/
@[simp] theorem wordOfBytes_byteOfWord (order : ByteOrder) (w : Word) :
    wordOfBytes order (byteOfWord order w 0) (byteOfWord order w 1) (byteOfWord order w 2) (byteOfWord order w 3)
      = w := by
  cases order <;>
  · apply BitVec.eq_of_getLsbD_eq; intro i hi
    simp only [wordOfBytes, byteOfWord, BitVec.getLsbD_extractLsb', BitVec.getLsbD_cast, BitVec.getLsbD_append]
    (repeat' split) <;> (rw [decide_eq_true (by omega), Bool.true_and]; congr 1; omega)

end Sys2Proof

namespace Sys2Proof.Machine

variable (rs rt rd : RegIndex) (shamt : BitVec 5) (funct : FunctionCode) (opcode : Opcode) (imm : BitVec 16)
  (target : BitVec 26)

/-- The datapath reads from an R-format word the fields its meaning gives. -/
@[simp] theorem fieldsOf_encodeR :
    fieldsOf (encodeR rs rt rd shamt funct) = rFields rs rt rd shamt funct := by
  simp only [fieldsOf, rFields, rsOf_encodeR, rtOf_encodeR, rdOf_encodeR, Fields.mk.injEq, true_and]
  constructor <;>
  · apply BitVec.eq_of_getLsbD_eq; intro i hi
    simp only [immOf, targetOf, encodeR, BitVec.getLsbD_extractLsb', BitVec.getLsbD_cast, BitVec.getLsbD_append, hi,
      decide_true, Bool.true_and]
    (repeat' split) <;> first | omega | (congr 1; omega)

/-- The datapath reads from an I-format word the fields its meaning gives. -/
@[simp] theorem fieldsOf_encodeI : fieldsOf (encodeI opcode rs rt imm) = iFields rs rt imm := by
  simp only [fieldsOf, iFields, rsOf_encodeI, rtOf_encodeI, immOf_encodeI, Fields.mk.injEq, true_and]
  constructor <;>
  · apply BitVec.eq_of_getLsbD_eq; intro i hi
    simp only [rdOf, targetOf, encodeI, BitVec.getLsbD_extractLsb', BitVec.getLsbD_cast, BitVec.getLsbD_append, hi,
      decide_true, Bool.true_and]
    (repeat' split) <;> first | omega | rfl | (congr 1; omega)

/-- The datapath reads from a J-format word the fields its meaning gives. -/
@[simp] theorem fieldsOf_encodeJ : fieldsOf (encodeJ target) = jFields target := by
  simp only [fieldsOf, jFields, targetOf_encodeJ, Fields.mk.injEq, and_true]
  refine ⟨?_, ?_, ?_, ?_⟩ <;>
  · apply BitVec.eq_of_getLsbD_eq; intro i hi
    simp only [rsOf, rtOf, rdOf, immOf, encodeJ, BitVec.getLsbD_extractLsb', BitVec.getLsbD_cast,
      BitVec.getLsbD_append, hi, decide_true, Bool.true_and]
    (repeat' split) <;> first | omega | rfl

end Sys2Proof.Machine
end

