-- ==== Sys2Proof/Laws/Memory.lean ====
section
/-! SUPPORT. Registers and memory: what a read sees after a write, and that every memory operation keeps the canonical
form. -/

namespace Sys2Proof.Machine

section Registers

variable (regs : Vector Word 32) (r q : RegIndex) (v : Word)

@[simp] theorem setReg_zero : setReg regs 0#5 v = regs := by simp [setReg]

theorem getReg_setReg_same (h : r ≠ 0#5) : getReg (setReg regs r v) r = v := by
  simp [getReg, setReg, h]

theorem getReg_setReg_of_ne (h : q ≠ r) : getReg (setReg regs r v) q = getReg regs q := by
  have hne : r.toNat ≠ q.toNat := fun he => h (BitVec.eq_of_toNat_eq he.symm)
  unfold getReg setReg
  split
  · rfl
  · split
    · rfl
    · exact Vector.getElem_set_ne _ _ hne

end Registers

section Bytes

variable {m : Memory} {a b : Nat} {v : Byte}

@[simp] theorem byteAt_setByte_same : byteAt (setByte m a v) a = some v := by
  induction m with
  | nil => simp [setByte, byteAt]
  | cons c rest ih =>
    obtain ⟨k, u⟩ := c
    unfold setByte
    split
    · simp [byteAt]
    · split
      · simp [byteAt]
      · rename_i h
        simp [byteAt, Ne.symm h, ih]

theorem byteAt_setByte_of_ne (h : b ≠ a) : byteAt (setByte m a v) b = byteAt m b := by
  induction m with
  | nil => simp [setByte, byteAt, Ne.symm h]
  | cons c rest ih =>
    obtain ⟨k, u⟩ := c
    unfold setByte
    split
    · simp [byteAt, Ne.symm h]
    · split
      · rename_i hk
        subst hk
        simp [byteAt, Ne.symm h]
      · simp [byteAt, ih]

/-- A rising list stays rising when a byte at or above its bound is written. -/
theorem risingFrom_setByte {low : Nat} (hl : low ≤ a) (ha : a < 2 ^ 32) (h : risingFrom low m = true) :
    risingFrom low (setByte m a v) = true := by
  induction m generalizing low with
  | nil => simpa [setByte, risingFrom] using ⟨hl, ha⟩
  | cons c rest ih =>
    obtain ⟨k, u⟩ := c
    simp only [risingFrom, Bool.and_eq_true, decide_eq_true_eq] at h
    unfold setByte
    split
    · rename_i hk
      simp only [risingFrom, Bool.and_eq_true, decide_eq_true_eq]
      exact ⟨⟨hl, ha⟩, ⟨hk, h.1.2⟩, h.2⟩
    · split
      · rename_i hk
        subst hk
        simpa [risingFrom] using h
      · simp only [risingFrom, Bool.and_eq_true, decide_eq_true_eq]
        exact ⟨h.1, ih (by omega) h.2⟩

/-- Writing a byte keeps the canonical form. -/
theorem setByte_wf (ha : a < 2 ^ 32) (h : m.wf = true) : (setByte m a v).wf = true :=
  risingFrom_setByte (Nat.zero_le a) ha h

/-- A rising list holds nothing below its bound. -/
theorem byteAt_of_risingFrom {low : Nat} (h : risingFrom low m = true) (ha : a < low) : byteAt m a = none := by
  induction m generalizing low with
  | nil => rfl
  | cons c rest ih =>
    obtain ⟨k, u⟩ := c
    simp only [risingFrom, Bool.and_eq_true, decide_eq_true_eq] at h
    unfold byteAt
    rw [if_neg (by omega)]
    exact ih h.2 (by omega)

/-- Rising lists that read alike are the same list. -/
theorem risingFrom_ext {m' : Memory} {low low' : Nat} (h : risingFrom low m = true)
    (h' : risingFrom low' m' = true) (he : ∀ b, byteAt m b = byteAt m' b) : m = m' := by
  induction m generalizing m' low low' with
  | nil =>
    cases m' with
    | nil => rfl
    | cons c rest => simpa [byteAt] using he c.1
  | cons c rest ih =>
    obtain ⟨k, u⟩ := c
    cases m' with
    | nil => simpa [byteAt] using he k
    | cons c' rest' =>
      obtain ⟨k', u'⟩ := c'
      simp only [risingFrom, Bool.and_eq_true, decide_eq_true_eq] at h h'
      have hk : k = k' := by
        rcases Nat.lt_trichotomy k k' with hlt | heq | hlt
        · have := he k
          rw [byteAt, if_pos rfl, byteAt, if_neg (by omega), byteAt_of_risingFrom h'.2 (by omega)] at this
          cases this
        · exact heq
        · have := he k'
          rw [byteAt, if_neg (by omega), byteAt_of_risingFrom h.2 (by omega), byteAt, if_pos rfl] at this
          cases this
      subst hk
      have hu : u = u' := by simpa [byteAt] using he k
      subst hu
      congr 1
      refine ih h.2 h'.2 fun b => ?_
      by_cases hb : k = b
      · subst hb
        rw [byteAt_of_risingFrom h.2 (Nat.lt_succ_self k), byteAt_of_risingFrom h'.2 (Nat.lt_succ_self k)]
      · simpa [byteAt, hb] using he b

/-- Memories in canonical form that read alike are equal data. -/
theorem memory_ext {m' : Memory} (h : m.wf = true) (h' : m'.wf = true) (he : ∀ b, byteAt m b = byteAt m' b) :
    m = m' :=
  risingFrom_ext h h' he

end Bytes

section Words

variable {order : ByteOrder} {m : Memory} {a v : Word}

/-- A multiple of 4 leaves room for a whole word below the top of the address space. -/
theorem aligned_iff : aligned a = true ↔ a.toNat % 4 = 0 := by
  simp only [aligned, beq_iff_eq, ← BitVec.toNat_inj, BitVec.extractLsb'_toNat]
  simp

/-- Storing a word at a multiple of 4 keeps the canonical form. -/
theorem storeWord_wf (ha : aligned a = true) (h : m.wf = true) : (storeWord order m a v).wf = true := by
  have := aligned_iff.1 ha
  have := a.isLt
  exact setByte_wf (by omega) (setByte_wf (by omega) (setByte_wf (by omega) (setByte_wf (by omega) h)))

/-- A byte outside the stored word reads as before. -/
theorem byteAt_storeWord_of_outside {b : Nat} (h : b < a.toNat ∨ a.toNat + 4 ≤ b) :
    byteAt (storeWord order m a v) b = byteAt m b := by
  unfold storeWord
  rw [byteAt_setByte_of_ne (by omega), byteAt_setByte_of_ne (by omega), byteAt_setByte_of_ne (by omega),
    byteAt_setByte_of_ne (by omega)]

/-- The four bytes of a stored word. -/
theorem byteAt_storeWord :
    byteAt (storeWord order m a v) a.toNat = some (byteOfWord order v 0) ∧
    byteAt (storeWord order m a v) (a.toNat + 1) = some (byteOfWord order v 1) ∧
    byteAt (storeWord order m a v) (a.toNat + 2) = some (byteOfWord order v 2) ∧
    byteAt (storeWord order m a v) (a.toNat + 3) = some (byteOfWord order v 3) := by
  unfold storeWord
  refine ⟨?_, ?_, ?_, ?_⟩
  · rw [byteAt_setByte_of_ne (by omega), byteAt_setByte_of_ne (by omega), byteAt_setByte_of_ne (by omega),
      byteAt_setByte_same]
  · rw [byteAt_setByte_of_ne (by omega), byteAt_setByte_of_ne (by omega), byteAt_setByte_same]
  · rw [byteAt_setByte_of_ne (by omega), byteAt_setByte_same]
  · rw [byteAt_setByte_same]

/-- A stored word is there. -/
@[simp] theorem writtenWord_storeWord : writtenWord order (storeWord order m a v) a = some v := by
  obtain ⟨h0, h1, h2, h3⟩ := byteAt_storeWord (order := order) (m := m) (a := a) (v := v)
  simp [writtenWord, h0, h1, h2, h3]

/-- A load of a word that is there gives it, whatever the draw. -/
theorem loadWord_of_written {draw : Nat} (h : writtenWord order m a = some v) : loadWord order m draw a = v := by
  unfold writtenWord at h
  split at h
  · rename_i h0 h1 h2 h3
    simpa [loadWord, readByte, h0, h1, h2, h3] using h
  · cases h

/-- A word in the map has its four bytes there. -/
theorem mappedByte_of_mappedWord {regions : List Region} {k : Nat} (h : mappedWord regions a = true) (hk : k ≤ 3) :
    mappedByte regions (a.toNat + k) = true := by
  simp only [mappedWord, mappedByte, regionHolds, List.any_eq_true, Bool.and_eq_true, decide_eq_true_eq] at h ⊢
  obtain ⟨r, hr, h0, h3⟩ := h
  exact ⟨r, hr, by omega, by omega⟩

/-- A written byte is listed, and nothing else comes in. -/
theorem setByte_all {p : Host.Cell → Bool} {m : Memory} {a : Nat} {v : Byte} (ha : p (a, v) = true)
    (h : m.all p = true) : (setByte m a v).all p = true := by
  induction m with
  | nil => simpa [setByte] using ha
  | cons c rest ih =>
    obtain ⟨k, u⟩ := c
    simp only [List.all_cons, Bool.and_eq_true] at h
    unfold setByte
    (repeat' split) <;> simp only [List.all_cons, Bool.and_eq_true]
    · exact ⟨ha, h⟩
    · exact ⟨ha, h.2⟩
    · exact ⟨h.1, ih h.2⟩

/-- Storing a word of the map lists no byte outside it. -/
theorem storeWord_inMap {regions : List Region} (ha : mappedWord regions a = true)
    (h : (m.all fun cell => mappedByte regions cell.1) = true) :
    ((storeWord order m a v).all fun cell => mappedByte regions cell.1) = true :=
  setByte_all (mappedByte_of_mappedWord ha (k := 3) (by omega))
    (setByte_all (mappedByte_of_mappedWord ha (k := 2) (by omega))
      (setByte_all (mappedByte_of_mappedWord ha (k := 1) (by omega))
        (setByte_all (mappedByte_of_mappedWord ha (k := 0) (by omega)) h)))

end Words

end Sys2Proof.Machine
end

