-- ==== Sys2Proof/Laws/State.lean ====
section
/-! SUPPORT. One lemma per field for each operation that updates the state, true by `rfl`, so that no later proof unfolds
a record update. -/

namespace Sys2Proof.Machine

section Cycle

variable (c : ControlSignals) (f : Fields) (s : State)

@[simp] theorem cycleState_pc : (cycleState c f s).pc = nextPc c f (cycleResult c f s) s.pc := rfl
@[simp] theorem cycleState_regs : (cycleState c f s).regs = cycleRegs c f (cycleResult c f s) s := rfl
@[simp] theorem cycleState_imem : (cycleState c f s).imem = s.imem := rfl
@[simp] theorem cycleState_dmem : (cycleState c f s).dmem = cycleMemory c f (cycleResult c f s) s := rfl
@[simp] theorem cycleState_halted : (cycleState c f s).halted = s.halted := rfl
@[simp] theorem cycleState_config : (cycleState c f s).config = s.config := rfl
@[simp] theorem cycleState_diagnostic : (cycleState c f s).diagnostic = s.diagnostic := rfl
@[simp] theorem cycleState_output : (cycleState c f s).output = some (.ok c) := rfl
@[simp] theorem cycleState_draws : (cycleState c f s).draws = cycleDraws c (cycleResult c f s) s := rfl

end Cycle

section Failure

variable (e : Failure) (s : State)

theorem takeFailure_halt (h : s.config.unsupportedPolicy = .halt) :
    takeFailure e s = { s with halted := true, diagnostic := some e, output := some (.err e) } := by
  simp [takeFailure, h]

theorem takeFailure_skip (h : s.config.unsupportedPolicy = .reportAndSkip) :
    takeFailure e s = { s with pc := s.pc + 4#32, diagnostic := some e, output := some (.err e) } := by
  simp [takeFailure, h]

@[simp] theorem takeFailure_regs : (takeFailure e s).regs = s.regs := by unfold takeFailure; split <;> rfl
@[simp] theorem takeFailure_imem : (takeFailure e s).imem = s.imem := by unfold takeFailure; split <;> rfl
@[simp] theorem takeFailure_dmem : (takeFailure e s).dmem = s.dmem := by unfold takeFailure; split <;> rfl
@[simp] theorem takeFailure_config : (takeFailure e s).config = s.config := by unfold takeFailure; split <;> rfl
@[simp] theorem takeFailure_draws : (takeFailure e s).draws = s.draws := by unfold takeFailure; split <;> rfl
@[simp] theorem takeFailure_diagnostic : (takeFailure e s).diagnostic = some e := by
  unfold takeFailure; split <;> rfl
@[simp] theorem takeFailure_output : (takeFailure e s).output = some (.err e) := by
  unfold takeFailure; split <;> rfl

/-- The pc stays at the failing word or goes on to the next. -/
theorem takeFailure_pc : (takeFailure e s).pc = s.pc ∨ (takeFailure e s).pc = s.pc + 4#32 := by
  unfold takeFailure; split
  · exact .inl rfl
  · exact .inr rfl

end Failure

section Load

variable (s : State) (w : Word)

@[simp] theorem loadAtPc_pc : (loadAtPc s w).pc = alignDown s.pc := rfl
@[simp] theorem loadAtPc_regs : (loadAtPc s w).regs = s.regs := rfl
@[simp] theorem loadAtPc_imem :
    (loadAtPc s w).imem = storeWord s.config.byteOrder s.imem (alignDown s.pc) w := rfl
@[simp] theorem loadAtPc_dmem : (loadAtPc s w).dmem = s.dmem := rfl
@[simp] theorem loadAtPc_halted : (loadAtPc s w).halted = false := rfl
@[simp] theorem loadAtPc_byteOrder : (loadAtPc s w).config.byteOrder = s.config.byteOrder := rfl
@[simp] theorem loadAtPc_jumpEnabled : (loadAtPc s w).config.jumpEnabled = s.config.jumpEnabled := rfl
@[simp] theorem loadAtPc_unsupportedPolicy :
    (loadAtPc s w).config.unsupportedPolicy = s.config.unsupportedPolicy := rfl
@[simp] theorem loadAtPc_addressMap :
    (loadAtPc s w).config.addressMap = mapInstructionWord s.config.addressMap (alignDown s.pc) := rfl
@[simp] theorem loadAtPc_programEnd : (loadAtPc s w).config.programEnd =
    if s.config.programEnd = some (alignDown s.pc) then none else s.config.programEnd := rfl
@[simp] theorem loadAtPc_diagnostic : (loadAtPc s w).diagnostic = s.diagnostic := rfl
@[simp] theorem loadAtPc_output : (loadAtPc s w).output = s.output := rfl
@[simp] theorem loadAtPc_draws : (loadAtPc s w).draws = s.draws := rfl

end Load

end Sys2Proof.Machine
end

