-- ==== Sys2Proof/Laws/Exec.lean ====
section
/-! SUPPORT. What one cycle, one fetch and one step can do, said once. -/

namespace Sys2Proof.Machine

section Selections

variable {c : ControlSignals} {f : Fields} {s : State} {result pc : Word}

/-- The `Jump` field of a tuple other than J's asks for no jump. -/
@[simp] theorem jumpField_false_ne (k : Config) : jumpField k false ≠ some true := by
  unfold jumpField; split <;> simp

theorem cycleRegs_of_no_write (h : c.regWrite = false) : cycleRegs c f result s = s.regs := by
  simp [cycleRegs, h]

theorem cycleMemory_of_no_write (h : c.memWrite = false) : cycleMemory c f result s = s.dmem := by
  simp [cycleMemory, h]

/-- A cycle writes no register but its destination. -/
theorem getReg_cycleRegs_of_ne {q : RegIndex} (h : q ≠ destination c.regDst f) :
    getReg (cycleRegs c f result s) q = getReg s.regs q := by
  unfold cycleRegs
  split
  · exact getReg_setReg_of_ne _ _ _ _ h
  · rfl

/-- A cycle writes no byte but the four at the ALU's result. -/
theorem byteAt_cycleMemory_of_outside {b : Nat} (h : b < result.toNat ∨ result.toNat + 4 ≤ b) :
    byteAt (cycleMemory c f result s) b = byteAt s.dmem b := by
  unfold cycleMemory
  split
  · exact byteAt_storeWord_of_outside h
  · rfl

/-- Where neither a branch nor a jump is asked for, the next pc is the next word's. -/
theorem nextPc_sequential (hb : c.branch = false) (hj : c.jump ≠ some true) :
    nextPc c f result pc = pc + 4#32 := by
  simp [nextPc, hb, hj]

/-- The three places the next pc can be. -/
theorem nextPc_cases : nextPc c f result pc = branchTarget pc f ∨ nextPc c f result pc = jumpTarget pc f ∨
    nextPc c f result pc = pc + 4#32 := by
  unfold nextPc
  split
  · exact .inl rfl
  · split
    · exact .inr (.inl rfl)
    · exact .inr (.inr rfl)

end Selections

/-- Everything a datapath cycle that goes on does: the cycle's state, with any access at an accessible address. -/
theorem datapath_next {c : ControlSignals} {f : Fields} {s t : State} (h : datapath c f s = .next t) :
    t = cycleState c f s ∧
      ((c.memRead || c.memWrite) = true → accessible s.config (cycleResult c f s) = true) := by
  unfold datapath at h
  split at h
  · cases h
  · split at h
    · cases h
    · rename_i ha hm
      cases h
      refine ⟨rfl, fun hacc => ?_⟩
      simp only [hacc, Bool.true_and, Bool.not_eq_true', Bool.not_eq_false] at ha hm
      simp [accessible, ha, hm]

/-- A cycle that accesses no memory goes on. -/
theorem datapath_of_no_access {c : ControlSignals} {f : Fields} {s : State} (hr : c.memRead = false)
    (hw : c.memWrite = false) : datapath c f s = .next (cycleState c f s) := by
  simp [datapath, hr, hw]

/-- A cycle whose ALU result is an accessible address goes on. -/
theorem datapath_of_accessible {c : ControlSignals} {f : Fields} {s : State}
    (h : accessible s.config (cycleResult c f s) = true) : datapath c f s = .next (cycleState c f s) := by
  simp only [accessible, Bool.and_eq_true] at h
  simp [datapath, h.1, h.2]

/-- Everything a consumed result that goes on can be: a cycle, or a failure taken. -/
theorem consume_next {r : Result ControlSignals} {f : Fields} {s t : State} (h : consume r f s = .next t) :
    (∃ c, r = .ok c ∧ t = cycleState c f s ∧
      ((c.memRead || c.memWrite) = true → accessible s.config (cycleResult c f s) = true)) ∨
    (∃ e, r = .err e ∧ t = takeFailure e s) := by
  cases r with
  | ok c => exact .inl ⟨c, rfl, datapath_next h⟩
  | err e => cases h; exact .inr ⟨e, rfl, rfl⟩

/-- The map made for a word holds it. -/
@[simp] theorem mappedWord_mapInstructionWord (m : AddressMap) (a : Word) :
    mappedWord (mapInstructionWord m a).instruction a = true := by
  unfold mapInstructionWord
  split
  · assumption
  · simp [mappedWord, regionHolds]

/-- A fetch that answers a word does so from a running state, at an aligned pc in the map, where that word is loaded. -/
theorem fetch_next {s : State} {w : Word} (h : fetch s = .next w) :
    s.halted = false ∧ s.config.programEnd ≠ some s.pc ∧ aligned s.pc = true ∧
      mappedWord s.config.addressMap.instruction s.pc = true ∧
      writtenWord s.config.byteOrder s.imem s.pc = some w := by
  unfold fetch at h
  (repeat' split at h) <;> simp_all

/-- Those conditions are enough. -/
theorem fetch_eq_next {s : State} {w : Word} (hh : s.halted = false) (he : s.config.programEnd ≠ some s.pc)
    (ha : aligned s.pc = true) (hm : mappedWord s.config.addressMap.instruction s.pc = true)
    (hw : writtenWord s.config.byteOrder s.imem s.pc = some w) : fetch s = .next w := by
  simp [fetch, hh, he, ha, hm, hw]

/-- A step that goes on fetched a word. -/
theorem step_next_fetch {s t : State} (h : step s = .next t) : ∃ w, fetch s = .next w := by
  unfold step at h
  split at h
  · rename_i w hw
    exact ⟨w, hw⟩
  · cases h
  · cases h

end Sys2Proof.Machine
end

