-- ==== Sys2Proof/Laws/PerInstr.lean ====
section
/-! SUPPORT. What holds of the word of every instruction, one lemma per constructor: the Control Unit is handed the
instruction's own opcode and function code (spec/30_encoding.md R71). -/

namespace Sys2Proof.Laws.EncodedCodes

/-- The opcode and function code of an instruction's word are the instruction's. -/
def Statement (i : Instr) : Prop :=
  opcodeOf (encode i) = i.opcode ∧ functOf (encode i) = i.functionCode

theorem add (rs rt rd : RegIndex) (shamt : BitVec 5) : Statement (.add rs rt rd shamt) := by
  simp [Statement, encode, Instr.opcode, Instr.functionCode]
theorem sub (rs rt rd : RegIndex) (shamt : BitVec 5) : Statement (.sub rs rt rd shamt) := by
  simp [Statement, encode, Instr.opcode, Instr.functionCode]
theorem and (rs rt rd : RegIndex) (shamt : BitVec 5) : Statement (.and rs rt rd shamt) := by
  simp [Statement, encode, Instr.opcode, Instr.functionCode]
theorem or (rs rt rd : RegIndex) (shamt : BitVec 5) : Statement (.or rs rt rd shamt) := by
  simp [Statement, encode, Instr.opcode, Instr.functionCode]
theorem slt (rs rt rd : RegIndex) (shamt : BitVec 5) : Statement (.slt rs rt rd shamt) := by
  simp [Statement, encode, Instr.opcode, Instr.functionCode]
theorem lw (rs rt : RegIndex) (imm : BitVec 16) : Statement (.lw rs rt imm) := by
  simp [Statement, encode, Instr.opcode, Instr.functionCode]
theorem sw (rs rt : RegIndex) (imm : BitVec 16) : Statement (.sw rs rt imm) := by
  simp [Statement, encode, Instr.opcode, Instr.functionCode]
theorem beq (rs rt : RegIndex) (imm : BitVec 16) : Statement (.beq rs rt imm) := by
  simp [Statement, encode, Instr.opcode, Instr.functionCode]
theorem j (target : BitVec 26) : Statement (.j target) := by
  simp [Statement, encode, Instr.opcode, Instr.functionCode]

end Sys2Proof.Laws.EncodedCodes
end

