-- ==== Sys2Proof/Tests/Slice0.lean ====
section
/-! SUPPORT. The model's own tests. Expected values come from the spec's worked examples and vectors
(spec/42_instructions.md, spec/95_test_vectors.md). The witnesses at the end show, for every statement with hypotheses, a
state and operands that meet all of them. -/

namespace Sys2Proof.Tests

open Sys2Proof.Machine

/-! ### Helpers -/

/-- The next state, if there is one. -/
def after (o : Host.Outcome State Fault Refusal) : Option State :=
  match o with
  | .next t => some t
  | .fault _ => none
  | .refused _ => none

/-- The refusal, if there is one. -/
def refusal (o : Host.Outcome State Fault Refusal) : Option Refusal :=
  match o with
  | .next _ => none
  | .fault _ => none
  | .refused r => some r

/-- The fault, if there is one. -/
def faulted (o : Host.Outcome State Fault Refusal) : Option Fault :=
  match o with
  | .next _ => none
  | .fault f => some f
  | .refused _ => none

/-- A register of the next state. -/
def regAfter (o : Host.Outcome State Fault Refusal) (r : RegIndex) : Option Word :=
  (after o).map fun t => getReg t.regs r

/-- The next pc. -/
def pcAfter (o : Host.Outcome State Fault Refusal) : Option Word := (after o).map State.pc

/-- The reset machine with `x[8]`, `x[9]` and `x[16]` set, and the word `w` loaded at its pc. -/
def small (w x8 x9 x16 : Word) : State :=
  loadAtPc { State.reset with
    regs := setReg (setReg (setReg State.reset.regs 8#5 x8) 9#5 x9) 16#5 x16 } w

/-- The same with `JUMP_ENABLED`. -/
def smallJump (w : Word) : State :=
  { small w 5#32 3#32 0x100#32 with config := { Config.reset with jumpEnabled := true } }

/-- A state with a word of data memory. -/
def withData (s : State) (a v : Word) : State :=
  { s with dmem := storeWord s.config.byteOrder s.dmem a v }

/-- A configuration whose data memory is the 256 bytes from 0x100, with no instruction memory. -/
def noMap : Config :=
  { Config.reset with addressMap := { instruction := [], data := [{ base := 0x100#32, size := 0x100 }] } }

/-! ### Well-formedness: the one check refuses an ill-formed term -/

theorem test_wellFormed_refuses_j_without_jump : Instr.wellFormed Config.reset (.j 0x100#26) = false := by decide

theorem test_wellFormed_accepts_j_with_jump :
    Instr.wellFormed { Config.reset with jumpEnabled := true } (.j 0x100#26) = true := by decide

/-! ### Decoding: words written out from the spec's encodings (R71, R73 to R75) -/

/-- `add $t2, $t0, $t1`: 000000 01000 01001 01010 00000 100000 -/
theorem test_decode_add :
    decode 0b00000001000010010101000000100000#32 = .ok (.add 8#5 9#5 10#5 0#5) := by decide

/-- `sub $t3, $t0, $t1`: 000000 01000 01001 01011 00000 100010 -/
theorem test_decode_sub :
    decode 0b00000001000010010101100000100010#32 = .ok (.sub 8#5 9#5 11#5 0#5) := by decide

/-- `and $t2, $t0, $t1`: 000000 01000 01001 01010 00000 100100 -/
theorem test_decode_and :
    decode 0b00000001000010010101000000100100#32 = .ok (.and 8#5 9#5 10#5 0#5) := by decide

/-- `or $t2, $t0, $t1`: 000000 01000 01001 01010 00000 100101 -/
theorem test_decode_or :
    decode 0b00000001000010010101000000100101#32 = .ok (.or 8#5 9#5 10#5 0#5) := by decide

/-- `slt $t6, $t1, $t0`: 000000 01001 01000 01110 00000 101010 (Program A) -/
theorem test_decode_slt :
    decode 0b00000001001010000111000000101010#32 = .ok (.slt 9#5 8#5 14#5 0#5) := by decide

/-- `lw $t2, -4($s0)`: 100011 10000 01010 1111111111111100 (Program B) -/
theorem test_decode_lw :
    decode 0b10001110000010101111111111111100#32 = .ok (.lw 16#5 10#5 0xFFFC#16) := by decide

/-- `sw $t1, 8($s0)`: 101011 10000 01001 0000000000001000 (Program B) -/
theorem test_decode_sw :
    decode 0b10101110000010010000000000001000#32 = .ok (.sw 16#5 9#5 8#16) := by decide

/-- `beq $t0, $zero, 3`: 000100 01000 00000 0000000000000011 (Program C) -/
theorem test_decode_beq :
    decode 0b00010001000000000000000000000011#32 = .ok (.beq 8#5 0#5 3#16) := by decide

/-- `j 0x100`: 000010 00000000000000000100000000 (R159) -/
theorem test_decode_j : decode 0b00001000000000000000000100000000#32 = .ok (.j 0x100#26) := by decide

/-- V9: a nonzero `shamt` is kept, and nothing else changes. -/
theorem test_decode_keeps_shamt : decode 0x01095160#32 = .ok (.add 8#5 9#5 10#5 5#5) := by decide

/-- V13: the all-zero word (R77). -/
theorem test_decode_rejects_zero_word : decode 0x00000000#32 = .err (.unsupportedFunctionCode 0#6) := by decide

/-- V20: the opcode is checked first (R184). -/
theorem test_decode_rejects_opcode_first : decode 0xFFFFFFFF#32 = .err (.unsupportedOpcode 0x3F#6) := by decide

/-- Fewer than four bytes are no instruction (R71). -/
theorem test_decodeBytes_rejects_three : decodeBytes .big [0#8, 0#8, 0#8] matches .error (.wrongLength 3) := by decide

/-- The bytes of V6 in either order. -/
theorem test_decodeBytes_orders :
    (decodeBytes .big [0x8E#8, 0x08#8, 0x00#8, 0x04#8] matches .ok (.lw _ _ _)) ∧
    (decodeBytes .little [0x04#8, 0x00#8, 0x08#8, 0x8E#8] matches .ok (.lw _ _ _)) := by decide

theorem test_decodeTableWord : decodeTableWord 32 0x11090002 = some (.beq 8#5 9#5 2#16) := by decide

theorem test_encode : encode (.sw 16#5 8#5 8#16) = 0xAE080008#32 := by decide

/-! ### The Control Unit at its ports (95_test_vectors.md 2.3) -/

/-- V1 to V5 in port form: 1001000_10 and the ALUControl code. -/
theorem test_ports_r_type :
    [0x20#6, 0x22#6, 0x24#6, 0x25#6, 0x2A#6].map (fun f => signalPorts (controlUnit Config.reset 0x00#6 f)) =
      [0b0010#4, 0b0110#4, 0b0000#4, 0b0001#4, 0b0111#4].map fun a =>
        some { signals := 0b1001000#7, aluOp := 0b10#2, aluControl := a, jump := none } := by decide

/-- V6, V7, V8 in port form. -/
theorem test_ports_lw_sw_beq :
    signalPorts (controlUnit Config.reset 0x23#6 0x3F#6) =
      some { signals := 0b0111010#7, aluOp := 0b00#2, aluControl := 0b0010#4, jump := none } ∧
    signalPorts (controlUnit Config.reset 0x2B#6 0x08#6) =
      some { signals := 0b0100100#7, aluOp := 0b00#2, aluControl := 0b0010#4, jump := none } ∧
    signalPorts (controlUnit Config.reset 0x04#6 0x02#6) =
      some { signals := 0b0000001#7, aluOp := 0b01#2, aluControl := 0b0110#4, jump := none } := by decide

/-- V18 and V19. -/
theorem test_ports_jump :
    errPort (controlUnit Config.reset 0x02#6 0x00#6) = 0b01#2 ∧
    signalPorts (controlUnit { Config.reset with jumpEnabled := true } 0x02#6 0x00#6) =
      some { signals := 0b0000000#7, aluOp := 0b00#2, aluControl := 0b0010#4, jump := some 1#1 } := by decide

/-! ### One step of each instruction (95_test_vectors.md section 3) -/

/-- Program A: 5 + 3. -/
theorem test_add : regAfter (step (small 0x01095020#32 5#32 3#32 0#32)) 10#5 = some 8#32 := by decide

/-- Program A2: the sum wraps and nothing is raised. -/
theorem test_add_wraps :
    regAfter (step (small 0x01095020#32 0xFFFFFFFF#32 1#32 0#32)) 10#5 = some 0#32 := by decide

/-- Program A: 5 - 3, the operands in this order. -/
theorem test_sub : regAfter (step (small 0x01095822#32 5#32 3#32 0#32)) 11#5 = some 2#32 := by decide

/-- 0x80000000 - 0x7FFFFFFF (Program A2: the operands are x9, x8). -/
theorem test_sub_wraps :
    regAfter (step (small 0x01285822#32 0x7FFFFFFF#32 0x80000000#32 0#32)) 11#5 = some 1#32 := by decide

/-- Program A. -/
theorem test_and : regAfter (step (small 0x01096024#32 5#32 3#32 0#32)) 12#5 = some 1#32 := by decide

/-- Program A. -/
theorem test_or : regAfter (step (small 0x01096825#32 5#32 3#32 0#32)) 13#5 = some 7#32 := by decide

/-- Program A2: `slt $t5, $t1, $t0` with x9 the most negative number. -/
theorem test_slt_signed :
    regAfter (step (small 0x0128682A#32 0x7FFFFFFF#32 0x80000000#32 0#32)) 13#5 = some 1#32 := by decide

/-- Program A2: `slt $t6, $t0, $t0`: equal is not less. -/
theorem test_slt_equal :
    regAfter (step (small 0x0108702A#32 0x7FFFFFFF#32 0#32 0#32)) 14#5 = some 0#32 := by decide

/-- Program B: `lw $t2, -4($s0)` with 0xFFFFFFFF at 0x0FC. -/
theorem test_lw_negative_offset :
    regAfter (step (withData (small 0x8E0AFFFC#32 0#32 0#32 0x100#32) 0xFC#32 0xFFFFFFFF#32)) 10#5
      = some 0xFFFFFFFF#32 := by decide

/-- A misaligned load is refused, and the refusal names the address (R164). -/
theorem test_lw_misaligned :
    refusal (step (small 0x8E080004#32 0#32 0#32 0x102#32)) = some (.misalignedAccess 0x106#32) := by decide

/-- The ends of a 256-byte data range: its last word is accessible, the words next to it are not. -/
theorem test_accessible_at_range_ends :
    accessible noMap 0x1FC#32 = true ∧ accessible noMap 0x200#32 = false ∧ accessible noMap 0xFC#32 = false := by decide

/-- Program B: `sw $t1, 8($s0)` with x9 = 14. -/
theorem test_sw :
    (after (step (small 0xAE090008#32 7#32 14#32 0x100#32))).map (fun t => writtenWord .little t.dmem 0x108#32)
      = some (some 14#32) := by decide

/-- A store of a word in big-endian order: the most significant byte lies lowest. -/
theorem test_storeWord_big :
    storeWord .big [] 0x108#32 0x0A0B0C0D#32 = [(0x108, 0x0A#8), (0x109, 0x0B#8), (0x10A, 0x0C#8), (0x10B, 0x0D#8)] := by
  decide

/-- Program C: `beq $t0, $zero, 3` falls through with x8 = 3 and goes to 0x10 with x8 = 0. -/
theorem test_beq :
    pcAfter (step (small 0x11000003#32 3#32 1#32 0#32)) = some 4#32 ∧
    pcAfter (step (small 0x11000003#32 0#32 1#32 0#32)) = some 0x10#32 := by decide

/-- V12: `beq $0, $0, -1` at 0 goes back to 0. -/
theorem test_beq_backward : pcAfter (step (small 0x1000FFFF#32 0#32 0#32 0#32)) = some 0#32 := by decide

/-- Program F with `JUMP_ENABLED`: `j 2` goes to 0x08. -/
theorem test_j : pcAfter (step (smallJump 0x08000002#32)) = some 8#32 := by decide

/-- Program F without it: the run halts at 0x00 with the diagnostic. -/
theorem test_j_disabled :
    (after (step (small 0x08000002#32 5#32 3#32 0#32))).map (fun t => (t.halted, t.pc, t.diagnostic))
      = some (true, 0#32, some (.unsupportedOpcode 0x02#6)) := by decide

/-- Program E: the all-zero word halts the run. -/
theorem test_zero_word_halts :
    (after (step (small 0x00000000#32 5#32 3#32 0#32))).map (fun t => (t.halted, t.pc, t.diagnostic))
      = some (true, 0#32, some (.unsupportedFunctionCode 0#6)) := by decide

/-- A write to `x[0]` is discarded (R163): `add $0, $t0, $t1`. -/
theorem test_write_to_zero : regAfter (step (small 0x01090020#32 5#32 3#32 0#32)) 0#5 = some 0#32 := by decide

/-- Nothing is loaded after reset. -/
theorem test_reset_fetches_nothing : faulted (step State.reset) = some (.noInstruction 0#32) := by decide

/-- `withFetchWord` places a word that the next step runs. -/
theorem test_withFetchWord :
    (after (step (State.reset.withFetchWord 32 0x01095020))).map State.output
      = some (some (.ok (rTypeVector Config.reset .add))) := by decide

/-! ### Witnesses: the hypotheses of the statements can be met -/

/-- A state past the end of its run, one at a program end, one at an unaligned pc, one outside the map and one with nothing
loaded. -/
theorem witness_StepStopsWhereNothingRuns :
    (∃ s : State, s.halted = true) ∧
    (∃ s : State, s.halted = false ∧ s.config.programEnd = some s.pc) ∧
    (∃ s : State, s.halted = false ∧ s.config.programEnd ≠ some s.pc ∧ aligned s.pc = false) ∧
    (∃ s : State, s.halted = false ∧ s.config.programEnd ≠ some s.pc ∧ aligned s.pc = true ∧
      mappedWord s.config.addressMap.instruction s.pc = false) ∧
    (∃ s : State, s.halted = false ∧ s.config.programEnd ≠ some s.pc ∧ aligned s.pc = true ∧
      mappedWord s.config.addressMap.instruction s.pc = true ∧
      writtenWord s.config.byteOrder s.imem s.pc = none) :=
  ⟨⟨{ State.reset with halted := true }, rfl⟩,
   ⟨{ State.reset with config := { Config.reset with programEnd := some 0#32 } }, by decide⟩,
   ⟨{ State.reset with pc := 2#32 }, by decide⟩, ⟨{ State.reset with config := noMap }, by decide⟩,
   ⟨State.reset, by decide⟩⟩

/-- A success with its signal ports, at either value of the `Jump` bit and without one. -/
theorem witness_ErrPortGatesSignalPorts :
    (signalPorts (.ok jVector)).isSome = true ∧
    (signalPorts (.ok (lwVector { Config.reset with jumpEnabled := true }))).isSome = true ∧
    (signalPorts (.ok (lwVector Config.reset))).isSome = true := by decide

/-- Opcodes other than R-type. -/
theorem witness_FunctionCodeIgnoredOutsideRType : (0x3F#6 : Opcode) ≠ 0x00#6 ∧ (0x23#6 : Opcode) ≠ 0x00#6 := by
  decide

/-- A recognised opcode; two opcodes with one tuple are the same one. -/
theorem witness_EachClassHasItsOwnNonzeroTuple :
    mainDecode Config.reset 0x2B#6 = .ok (mainSw Config.reset) := by decide

/-- Successes of the Control Unit. -/
theorem witness_SignalsNeverConflict :
    controlUnit Config.reset 0x23#6 0x3F#6 = .ok (lwVector Config.reset) := by decide

/-- Two configurations that agree on `JUMP_ENABLED` only. -/
theorem witness_DecodeDependsOnJumpEnabledOnly :
    ∃ c d : Config, c ≠ d ∧ c.jumpEnabled = d.jumpEnabled :=
  ⟨Config.reset, { Config.reset with byteOrder := .big, unsupportedPolicy := .reportAndSkip }, by decide⟩

/-- A main decode that succeeds. -/
theorem witness_StandaloneAluControlRefusesFourthCode :
    mainDecode Config.reset 0x00#6 = .ok (mainRType Config.reset) := by decide

/-- A word that decodes. -/
theorem witness_EncodeOfDecodeIsIdentity : decode 0x01095160#32 = .ok (.add 8#5 9#5 10#5 5#5) := by decide

/-- A word that decodes and one that does not. -/
theorem witness_DecoderAgreesWithControlUnit :
    decode 0x08000100#32 = .ok (.j 0x100#26) ∧
    decode 0x01095021#32 = .err (.unsupportedFunctionCode 0x21#6) := by decide

/-- The first and the last bit. -/
theorem witness_AluAndOrAreBitwise : (0 : Nat) < 32 ∧ (31 : Nat) < 32 := by decide

/-- The first and the last byte of a word, and the bytes next to a stored word, at the top of the address space. -/
theorem witness_StoreLaysBytesInOrder :
    (0 : Nat) < 4 ∧ (3 : Nat) < 4 ∧ 0xFFFFFFFB < (0xFFFFFFFC#32 : Word).toNat ∧
    (0xFFFFFFF8#32 : Word).toNat + 4 ≤ 0xFFFFFFFC := by decide

/-- The two ends of the address space. -/
theorem witness_LoadSeesMostRecentStore :
    aligned 0#32 = true ∧ aligned 0xFFFFFFFC#32 = true ∧ (0#32 : Word) ≠ 0xFFFFFFFC#32 := by decide

/-- A memory in canonical form and two different words. -/
theorem witness_StoresToDifferentWordsCommute :
    Memory.wf [(3, 7#8), (4, 9#8)] = true ∧ aligned 4#32 = true ∧ aligned 0xFFFFFFFC#32 = true ∧
    (4#32 : Word) ≠ 0xFFFFFFFC#32 := by decide

/-- A written word and one with unwritten bytes. -/
theorem witness_LoadOfWrittenWordDrawsNothing :
    writtenWord .little (storeWord .little [] 4#32 7#32) 4#32 = some 7#32 ∧
    writtenWord .little [(4, 7#8)] 4#32 = none := by decide

/-- An accessible effective address, by a negative offset. -/
theorem witness_LwLoadsAlignedWord :
    accessible Config.reset (effectiveAddress (small 0#32 0#32 0#32 0x100#32) 16#5 0xFFFC#16) = true := by decide

/-- The last word of the address space. -/
theorem witness_SwStoresAlignedWord :
    accessible Config.reset (effectiveAddress (small 0#32 0#32 0#32 0#32) 16#5 0xFFFC#16) = true := by decide

/-- A misaligned one, and an aligned one outside the map. -/
theorem witness_MisalignedOrUnmappedAccessIsRefused :
    (effectiveAddress (small 0#32 0#32 0#32 0x100#32) 16#5 0x0003#16).toNat % 4 ≠ 0 ∧
    (effectiveAddress (small 0#32 0#32 0#32 0x200#32) 16#5 0#16).toNat % 4 = 0 ∧
    mappedWord noMap.addressMap.data (effectiveAddress (small 0#32 0#32 0#32 0x200#32) 16#5 0#16) = false := by decide

/-- An aligned address at reset. -/
theorem witness_ResetMachineIsRunningAndEmpty : aligned 0xFFFFFFFC#32 = true := by decide

/-- Both settings of `JUMP_ENABLED`. -/
theorem witness_JumpExecutesWhenEnabled :
    (smallJump 0#32).config.jumpEnabled = true ∧ State.reset.config.jumpEnabled = false := by decide

/-- A store and a load of the same word. -/
theorem witness_StoreThenLoadReturnsValue :
    ∃ t u : State, exec (.sw 16#5 9#5 8#16) (small 0#32 7#32 14#32 0x100#32) = .next t ∧
      effectiveAddress t 16#5 8#16 = effectiveAddress (small 0#32 7#32 14#32 0x100#32) 16#5 8#16 ∧
      exec (.lw 16#5 10#5 8#16) t = .next u ∧ (10#5 : RegIndex) ≠ 0#5 :=
  ⟨_, _, rfl, rfl, rfl, by decide⟩

theorem witness_RTypeFrame :
    ∃ t : State, exec (.slt 8#5 9#5 10#5 0#5) (small 0#32 7#32 14#32 0#32) = .next t := ⟨_, rfl⟩

theorem witness_LwFrame :
    ∃ t : State, exec (.lw 16#5 10#5 8#16) (withData (small 0#32 7#32 14#32 0x100#32) 0x108#32 5#32) = .next t :=
  ⟨_, rfl⟩

theorem witness_SwFrame :
    ∃ t : State, exec (.sw 16#5 9#5 8#16) (small 0#32 7#32 14#32 0x100#32) = .next t := ⟨_, rfl⟩

theorem witness_BranchAndJumpFrame :
    (∃ t : State, exec (.beq 8#5 9#5 2#16) (small 0#32 7#32 7#32 0#32) = .next t) ∧
    (∃ t : State, exec (.j 2#26) (smallJump 0#32) = .next t) ∧
    (∃ t : State, exec (.j 2#26) State.reset = .next t) := ⟨⟨_, rfl⟩, ⟨_, rfl⟩, ⟨_, rfl⟩⟩

/-- `addi $t0, $zero, 5` (Program D) is fetched, and the Control Unit fails on it, under `halt`. -/
theorem witness_FailureHaltsUnderHaltPolicy :
    (small 0x20080005#32 5#32 3#32 0#32).config.unsupportedPolicy = .halt ∧
    fetch (small 0x20080005#32 5#32 3#32 0#32) = .next 0x20080005#32 ∧
    controlUnit Config.reset (opcodeOf 0x20080005#32) (functOf 0x20080005#32) = .err (.unsupportedOpcode 0x08#6) :=
  ⟨rfl, rfl, by decide⟩

/-- The same word under `report_and_skip`. -/
theorem witness_FailureIsSkippedUnderSkipPolicy :
    ∃ (s : State) (w : Word) (e : Failure), s.config.unsupportedPolicy = .reportAndSkip ∧ fetch s = .next w ∧
      controlUnit s.config (opcodeOf w) (functOf w) = .err e :=
  ⟨{ small 0x20080005#32 5#32 3#32 0#32 with config := { Config.reset with unsupportedPolicy := .reportAndSkip } },
    _, _, rfl, rfl, rfl⟩

/-- A running state at an aligned pc with `add $t2, $t0, $t1` loaded. -/
theorem witness_StepRunsDecodedInstruction :
    let s := small 0x01095020#32 5#32 3#32 0#32
    s.halted = false ∧ s.config.programEnd ≠ some s.pc ∧ aligned s.pc = true ∧
      mappedWord s.config.addressMap.instruction s.pc = true ∧
      writtenWord s.config.byteOrder s.imem s.pc = some 0x01095020#32 ∧
      decode 0x01095020#32 = .ok (.add 8#5 9#5 10#5 0#5) := by decide

/-- A fetched word, for the refinement. -/
theorem witness_StepIsOneControlUnitCycle :
    fetch (small 0xAE090008#32 7#32 14#32 0x100#32) = .next 0xAE090008#32 := rfl

/-- A fetched word and the step it takes, for the statements about every step. -/
theorem witness_StepOutputsItsOwnDecode :
    ∃ (s t : State) (w : Word), fetch s = .next w ∧ step s = .next t :=
  ⟨small 0xAE090008#32 7#32 14#32 0x100#32, _, _, rfl, rfl⟩

/-- A state that meets the invariant and steps. -/
theorem witness_StepKeepsInvariant :
    ∃ s t : State, s.Inv ∧ step s = .next t := ⟨small 0xAE090008#32 7#32 14#32 0x100#32, _, by decide, rfl⟩

theorem witness_StepKeepsProgramAndConfiguration :
    ∃ s t : State, step s = .next t := ⟨small 0x20080005#32 5#32 3#32 0#32, _, rfl⟩

/-- Steps of a word that is not SW, of one that writes no register, and of one the Control Unit accepts. -/
theorem witness_OnlyTheRightInstructionsWrite :
    (∃ (s t : State), fetch s = .next 0x01095020#32 ∧ step s = .next t) ∧
    opcodeOf 0x01095020#32 ≠ 0x2B#6 ∧
    (∃ (s t : State), fetch s = .next 0x11090002#32 ∧ step s = .next t) ∧
    opcodeOf 0x11090002#32 ≠ 0x00#6 ∧ opcodeOf 0x11090002#32 ≠ 0x23#6 ∧
    (∃ v, controlUnit Config.reset (opcodeOf 0x11090002#32) (functOf 0x11090002#32) = .ok v) :=
  ⟨⟨small 0x01095020#32 5#32 3#32 0#32, _, rfl, rfl⟩, by decide, ⟨small 0x11090002#32 5#32 3#32 0#32, _, rfl, rfl⟩,
    by decide, by decide, ⟨_, rfl⟩⟩

/-- A step that halts and one that does not. -/
theorem witness_OnlyUnrecognisedWordsHalt :
    (∃ (s t : State) (w : Word), fetch s = .next w ∧ step s = .next t ∧ t.halted = true) ∧
    (∃ (s t : State) (w : Word), fetch s = .next w ∧ step s = .next t ∧ t.halted = false) :=
  ⟨⟨small 0x00000000#32 5#32 3#32 0#32, _, _, rfl, rfl, rfl⟩, ⟨small 0x01095020#32 5#32 3#32 0#32, _, _, rfl, rfl, rfl⟩⟩

/-- The last word of the address space. -/
theorem witness_NextPcStaysAligned : (0xFFFFFFFC#32 : Word).toNat % 4 = 0 := by decide

/-- A fetched LW with an accessible address. -/
theorem witness_RecognisedInstructionsComplete :
    let s := withData (small 0x8E080004#32 0#32 0#32 0x100#32) 0x104#32 7#32
    fetch s = .next 0x8E080004#32 ∧ decode 0x8E080004#32 = .ok (.lw 16#5 8#5 4#16) ∧
      Instr.wellFormed s.config (.lw 16#5 8#5 4#16) = true ∧
      ∀ rs rt imm, Instr.lw 16#5 8#5 4#16 = .lw rs rt imm ∨ Instr.lw 16#5 8#5 4#16 = .sw rs rt imm →
        accessible s.config (effectiveAddress s rs imm) = true := by
  refine ⟨rfl, by decide, by decide, ?_⟩
  rintro rs rt imm (h | h)
  · cases h
    decide
  · cases h

/-- A fetched SW and its step, and a fetched word that is neither LW nor SW and its step. -/
theorem witness_DataMemoryIsReadByLwOnly :
    (∃ s t : State, fetch s = .next 0xAE090008#32 ∧ opcodeOf 0xAE090008#32 ≠ 0x23#6 ∧ step s = .next t) ∧
    (∃ s t : State, fetch s = .next 0x11090002#32 ∧ opcodeOf 0x11090002#32 ≠ 0x23#6 ∧
      step s = .next t ∧ opcodeOf 0x11090002#32 ≠ 0x2B#6) :=
  ⟨⟨small 0xAE090008#32 7#32 14#32 0x100#32, _, rfl, by decide, rfl⟩,
   ⟨small 0x11090002#32 5#32 3#32 0#32, _, rfl, by decide, rfl, by decide⟩⟩

end Sys2Proof.Tests
end

section
/-! PROOFS. The Control Unit's signals ask for no two conflicting things, and the ports tell its three results apart
(spec/10_state.md sections 2 and 4). -/

namespace Sys2Proof.Machine

/-! ### What the signals of a success ask for together -/

/-- Of the five tuples (R102 to R106), in the order of the table, only LW's writes loaded data back and only SW's writes
memory. -/
theorem mainDecode_memory_signals {c : Config} {op : Opcode} {m : MainSignals} (h : mainDecode c op = .ok m) :
    (m.memRead && m.memWrite) = false ∧ (m.regWrite && m.memWrite) = false ∧
    (m.memToReg = true → m.memRead = true ∧ m.regWrite = true) := by
  obtain ⟨-, rfl⟩ | ⟨-, rfl⟩ | ⟨-, rfl⟩ | ⟨-, rfl⟩ | ⟨-, rfl, -⟩ := mainDecode_cases h
  · exact ⟨rfl, rfl, nofun⟩
  · exact ⟨rfl, rfl, fun _ => ⟨rfl, rfl⟩⟩
  · exact ⟨rfl, rfl, nofun⟩
  · exact ⟨rfl, rfl, nofun⟩
  · exact ⟨rfl, rfl, nofun⟩

/-- `Branch` is BEQ's alone, and the `Jump` field of BEQ's tuple is 0 or absent (R105); J's tuple has `Branch` 0. -/
theorem mainDecode_branch_excludes_jump {c : Config} {op : Opcode} {m : MainSignals} (h : mainDecode c op = .ok m) :
    (m.branch && m.jump == some true) = false := by
  obtain ⟨-, rfl⟩ | ⟨-, rfl⟩ | ⟨-, rfl⟩ | ⟨-, rfl⟩ | ⟨-, rfl, -⟩ := mainDecode_cases h
  · rfl
  · rfl
  · rfl
  · simp [mainBeq]
  · rfl

/-- Settles O11: the sub-decode adds only `ALUControl`, so each clause is one about the main decode's tuple. -/
theorem signalsNeverConflict : Obligations.SignalsNeverConflict := by
  intro c op f v h
  obtain ⟨hmain, -⟩ := controlUnit_ok h
  obtain ⟨hrw, hww, hload⟩ := mainDecode_memory_signals hmain
  exact ⟨hrw, hww, mainDecode_branch_excludes_jump hmain, hload, mainDecode_jump hmain⟩

/-! ### The `err` port and the signal ports -/

section Ports

variable {α : Type} (r : Result α)

theorem errPort_eq_ok_iff : errPort r = 0b00#2 ↔ ∃ v, r = .ok v := by
  obtain v | (x | x) := r <;> simp [errPort]

theorem errPort_eq_unsupportedOpcode_iff :
    errPort r = 0b01#2 ↔ ∃ x, r = .err (.unsupportedOpcode x) := by
  obtain v | (x | x) := r <;> simp [errPort]

theorem errPort_eq_unsupportedFunctionCode_iff :
    errPort r = 0b10#2 ↔ ∃ x, r = .err (.unsupportedFunctionCode x) := by
  obtain v | (x | x) := r <;> simp [errPort]

theorem errPort_ne_three : errPort r ≠ 0b11#2 := by
  obtain v | (x | x) := r <;> simp [errPort]

end Ports

theorem signalPorts_isSome_iff (r : Result ControlSignals) : (signalPorts r).isSome = true ↔ ∃ v, r = .ok v := by
  cases r <;> simp [signalPorts]

section SignalBits

variable {c : ControlSignals} {p : SignalPorts}

/-- Each 1-bit signal stands at its place of the concatenation, `Branch` at bit 0 (R40). -/
theorem signalPorts_getLsbD (h : signalPorts (.ok c) = some p) :
    p.signals.getLsbD 6 = c.regDst ∧ p.signals.getLsbD 5 = c.aluSrc ∧ p.signals.getLsbD 4 = c.memToReg ∧
    p.signals.getLsbD 3 = c.regWrite ∧ p.signals.getLsbD 2 = c.memWrite ∧ p.signals.getLsbD 1 = c.memRead ∧
    p.signals.getLsbD 0 = c.branch := by
  cases h
  simp only [BitVec.getLsbD_append]
  simp

theorem signalPorts_codes (h : signalPorts (.ok c) = some p) :
    p.aluOp = aluOpPort c.aluOp ∧ p.aluControl = aluControlCode c.aluControl := by
  cases h
  exact ⟨rfl, rfl⟩

/-- The `Jump` port exists where the vector has the field, and carries its bit. -/
theorem signalPorts_jump (h : signalPorts (.ok c) = some p) : p.jump = c.jump.map BitVec.ofBool := by
  cases h
  rfl

end SignalBits

/-- Settles O15: `err` is read off the three results, and what the signal ports carry off the exposed record. -/
theorem errPortGatesSignalPorts : Obligations.ErrPortGatesSignalPorts := by
  intro r
  have hexposed : (signalPorts r).isSome = true ↔ errPort r = 0b00#2 :=
    (signalPorts_isSome_iff r).trans (errPort_eq_ok_iff r).symm
  refine ⟨errPort_eq_ok_iff r, errPort_eq_unsupportedOpcode_iff r, errPort_eq_unsupportedFunctionCode_iff r,
    errPort_ne_three r, hexposed, ?_⟩
  rintro c p rfl hp
  obtain ⟨h6, h5, h4, h3, h2, h1, h0⟩ := signalPorts_getLsbD hp
  obtain ⟨hop, hcontrol⟩ := signalPorts_codes hp
  refine ⟨h6, h5, h4, h3, h2, h1, h0, hop, hcontrol, ?_⟩
  rw [signalPorts_jump hp]
  obtain _ | (_ | _) := c.jump
  · rfl
  · rfl
  · rfl

end Sys2Proof.Machine
end

section
/-! PROOFS. The data memory: what a load reads after a store, which accesses are refused, and that no code of the
reference architecture's system and atomic instructions is recognised (spec/20_memory.md). -/

namespace Sys2Proof.Machine

/-! ### The bytes of a stored word -/

section StoredWords

variable {order : ByteOrder} {m : Memory} {a b v : Word}

theorem toNat_byteOfWord_little (w : Word) (k : Nat) : (byteOfWord .little w k).toNat = w.toNat / 256 ^ k % 256 := by
  simp [byteOfWord, BitVec.extractLsb'_toNat, Nat.shiftRight_eq_div_pow, Nat.pow_mul]

theorem toNat_byteOfWord_big (w : Word) (k : Nat) : (byteOfWord .big w k).toNat = w.toNat / 256 ^ (3 - k) % 256 :=
  toNat_byteOfWord_little w (3 - k)

/-- Every byte of memory after a store: one of the stored word's four, or what was there. -/
theorem byteAt_storeWord_eq_ite (x : Nat) : byteAt (storeWord order m a v) x =
    if a.toNat ≤ x ∧ x < a.toNat + 4 then some (byteOfWord order v (x - a.toNat)) else byteAt m x := by
  split
  next hin =>
    obtain ⟨k, rfl⟩ := Nat.exists_eq_add_of_le hin.1
    have hk : k < 4 := by omega
    obtain ⟨h0, h1, h2, h3⟩ := byteAt_storeWord (order := order) (m := m) (a := a) (v := v)
    rw [Nat.add_sub_cancel_left]
    match k, hk with
    | 0, _ => exact h0
    | 1, _ => exact h1
    | 2, _ => exact h2
    | 3, _ => exact h3
  next hout => exact byteAt_storeWord_of_outside (by omega)

theorem byteAt_storeWord_add {k : Nat} (hk : k < 4) :
    byteAt (storeWord order m a v) (a.toNat + k) = some (byteOfWord order v k) := by
  rw [byteAt_storeWord_eq_ite, if_pos (by omega), Nat.add_sub_cancel_left]

/-! ### Loads and stores of different words -/

/-- Different multiples of 4 are at least 4 apart, so their words share no byte. -/
theorem aligned_words_disjoint (ha : aligned a = true) (hb : aligned b = true) (hne : a ≠ b) :
    a.toNat + 4 ≤ b.toNat ∨ b.toNat + 4 ≤ a.toNat := by
  have hne' : a.toNat ≠ b.toNat := fun h => hne (BitVec.eq_of_toNat_eq h)
  rw [aligned_iff] at ha hb
  omega

/-- A load depends on the four bytes of its word only. -/
theorem loadWord_congr {m' : Memory} {draw : Nat}
    (h : ∀ k < 4, byteAt m (a.toNat + k) = byteAt m' (a.toNat + k)) :
    loadWord order m draw a = loadWord order m' draw a := by
  have h0 : byteAt m a.toNat = byteAt m' a.toNat := h 0 (by omega)
  simp only [loadWord, readByte, h0, h 1 (by omega), h 2 (by omega), h 3 (by omega)]

theorem loadWord_storeWord_same {draw : Nat} : loadWord order (storeWord order m a v) draw a = v :=
  loadWord_of_written writtenWord_storeWord

theorem loadWord_storeWord_of_disjoint {draw : Nat} (h : a.toNat + 4 ≤ b.toNat ∨ b.toNat + 4 ≤ a.toNat) :
    loadWord order (storeWord order m a v) draw b = loadWord order m draw b :=
  loadWord_congr fun _ _ => byteAt_storeWord_of_outside (by omega)

/-! ### Free values -/

theorem drawsAfterLoad_of_written {draws : Nat} (h : writtenWord order m a = some v) :
    drawsAfterLoad order m draws a = draws := by
  simp [drawsAfterLoad, h]

theorem drawsAfterLoad_of_unwritten {draws : Nat} (h : writtenWord order m a = none) :
    drawsAfterLoad order m draws a = draws + 1 := by
  simp [drawsAfterLoad, h]

end StoredWords

/-- Settles O27: the byte's place in the word is a division by a power of 256, and the rest is the frame of a store. -/
theorem storeLaysBytesInOrder : Obligations.StoreLaysBytesInOrder := by
  refine fun m a v => ⟨fun k hk => ⟨?_, ?_⟩, fun order x hx => byteAt_storeWord_of_outside hx⟩
  · rw [byteAt_storeWord_add hk, Option.map_some, toNat_byteOfWord_little]
  · rw [byteAt_storeWord_add hk, Option.map_some, toNat_byteOfWord_big]

/-- Settles O28: the load is of the stored word itself, or of one that shares no byte with it. -/
theorem loadSeesMostRecentStore : Obligations.LoadSeesMostRecentStore := by
  intro order m a b v draw ha hb
  split
  next heq => rw [heq, loadWord_storeWord_same]
  next hne => exact loadWord_storeWord_of_disjoint (aligned_words_disjoint ha hb (Ne.symm hne))

/-- Settles O29: both memories are canonical, and no byte lies in both words, so they read alike. -/
theorem storesToDifferentWordsCommute : Obligations.StoresToDifferentWordsCommute := by
  intro order m a b v u hm ha hb hne
  have hapart := aligned_words_disjoint ha hb hne
  refine memory_ext (storeWord_wf hb (storeWord_wf ha hm)) (storeWord_wf ha (storeWord_wf hb hm)) fun x => ?_
  simp only [byteAt_storeWord_eq_ite]
  by_cases hx : a.toNat ≤ x ∧ x < a.toNat + 4
  · have hxb : ¬ (b.toNat ≤ x ∧ x < b.toNat + 4) := by omega
    simp only [if_pos hx, if_neg hxb]
  · simp only [if_neg hx]

/-- Settles O30: one lemma for the value, one for the count of draws, and one for an unwritten byte. -/
theorem loadOfWrittenWordDrawsNothing : Obligations.LoadOfWrittenWordDrawsNothing :=
  fun _ _ _ _ => ⟨fun _ h => ⟨loadWord_of_written h, drawsAfterLoad_of_written h⟩, drawsAfterLoad_of_unwritten⟩

/-! ### LW and SW as cycles of the datapath -/

/-- LW is the datapath's cycle under its vector, which no function code changes (R156). -/
theorem exec_lw (s : State) (rs rt : RegIndex) (imm : BitVec 16) :
    exec (.lw rs rt imm) s = datapath (lwVector s.config) (iFields rs rt imm) s := rfl

/-- SW is the datapath's cycle under its vector (R157). -/
theorem exec_sw (s : State) (rs rt : RegIndex) (imm : BitVec 16) :
    exec (.sw rs rt imm) s = datapath (swVector s.config) (iFields rs rt imm) s := rfl

@[simp] theorem cycleResult_lwVector (c : Config) (s : State) (rs rt : RegIndex) (imm : BitVec 16) :
    cycleResult (lwVector c) (iFields rs rt imm) s = effectiveAddress s rs imm := rfl

@[simp] theorem cycleResult_swVector (c : Config) (s : State) (rs rt : RegIndex) (imm : BitVec 16) :
    cycleResult (swVector c) (iFields rs rt imm) s = effectiveAddress s rs imm := rfl

theorem exec_lw_next {s t : State} {rs rt : RegIndex} {imm : BitVec 16} (h : exec (.lw rs rt imm) s = .next t) :
    t.regs = setReg s.regs rt (loadWord s.config.byteOrder s.dmem s.draws (effectiveAddress s rs imm)) ∧
    t.draws = drawsAfterLoad s.config.byteOrder s.dmem s.draws (effectiveAddress s rs imm) := by
  rw [exec_lw] at h
  obtain ⟨rfl, -⟩ := datapath_next h
  exact ⟨rfl, rfl⟩

theorem exec_sw_next {s t : State} {rs rt : RegIndex} {imm : BitVec 16} (h : exec (.sw rs rt imm) s = .next t) :
    t.dmem = storeWord s.config.byteOrder s.dmem (effectiveAddress s rs imm) (getReg s.regs rt) ∧
    t.config = s.config ∧ t.draws = s.draws := by
  rw [exec_sw] at h
  obtain ⟨rfl, -⟩ := datapath_next h
  exact ⟨rfl, rfl, rfl⟩

/-- Settles O41: SW leaves the word written, and a load of a written word is that word and draws nothing. -/
theorem storeThenLoadReturnsValue : Obligations.StoreThenLoadReturnsValue := by
  intro s t u rs rt rb rd imm off hstore haddr hload hrd
  obtain ⟨hmem, hconfig, hdraws⟩ := exec_sw_next hstore
  obtain ⟨hregs, hdraws'⟩ := exec_lw_next hload
  have hwritten : writtenWord t.config.byteOrder t.dmem (effectiveAddress t rb off) = some (getReg s.regs rt) := by
    rw [haddr, hmem, hconfig, writtenWord_storeWord]
  constructor
  · rw [hregs, getReg_setReg_same _ _ _ hrd, loadWord_of_written hwritten]
  · rw [hdraws', drawsAfterLoad_of_written hwritten, hdraws]

/-! ### Refused accesses -/

section Refusals

variable {c : ControlSignals} {f : Fields} {s : State} {a : Word}

theorem datapath_of_misaligned (hacc : (c.memRead || c.memWrite) = true) (haddr : cycleResult c f s = a)
    (h : aligned a = false) : datapath c f s = .refused (.misalignedAccess a) := by
  simp [datapath, hacc, haddr, h]

theorem datapath_of_unmapped (hacc : (c.memRead || c.memWrite) = true) (haddr : cycleResult c f s = a)
    (ha : aligned a = true) (hm : mappedWord s.config.addressMap.data a = false) :
    datapath c f s = .refused (.unmappedAccess a) := by
  simp [datapath, hacc, haddr, ha, hm]

end Refusals

/-- Settles O38: both instructions access memory at the effective address, whose remainder mod 4 picks the refusal. -/
theorem misalignedOrUnmappedAccessIsRefused : Obligations.MisalignedOrUnmappedAccessIsRefused := by
  intro s rs rt imm
  rw [exec_lw, exec_sw]
  refine ⟨fun hrem => ?_, fun hrem hmap => ?_⟩
  · have halign : aligned (effectiveAddress s rs imm) = false := Bool.eq_false_iff.2 (mt aligned_iff.1 hrem)
    exact ⟨datapath_of_misaligned rfl (cycleResult_lwVector ..) halign,
      datapath_of_misaligned rfl (cycleResult_swVector ..) halign⟩
  · have halign := aligned_iff.2 hrem
    exact ⟨datapath_of_unmapped rfl (cycleResult_lwVector ..) halign hmap,
      datapath_of_unmapped rfl (cycleResult_swVector ..) halign hmap⟩

/-! ### Codes that are not recognised -/

/-- The main decode's only failure names its opcode (R107). -/
theorem mainDecode_err {c : Config} {op : Opcode} {e : Failure} (h : mainDecode c op = .err e) :
    e = .unsupportedOpcode op := by
  unfold mainDecode at h
  split at h
  · cases h
  · cases h
    rfl

theorem controlUnit_of_unrecognised_opcode {c : Config} {op : Opcode} (h : ¬ recognisedOpcode c op)
    (f : FunctionCode) : controlUnit c op f = .err (.unsupportedOpcode op) := by
  unfold controlUnit
  cases hm : mainDecode c op with
  | ok m =>
    refine absurd ?_ h
    obtain ⟨hop, -⟩ | ⟨hop, -⟩ | ⟨hop, -⟩ | ⟨hop, -⟩ | ⟨hop, -, hj⟩ := mainDecode_cases hm
    · exact .inl hop
    · exact .inr (.inl hop)
    · exact .inr (.inr (.inl hop))
    · exact .inr (.inr (.inr (.inl hop)))
    · exact .inr (.inr (.inr (.inr ⟨hop, hj⟩)))
  | err e => rw [mainDecode_err hm, Result.andThen]

theorem aluControl_of_unrecognised_function {f : FunctionCode} (h : ¬ recognisedFunction f) :
    aluControl .funct f = .err (.unsupportedFunctionCode f) := by
  unfold aluControl
  dsimp only
  split
  next a ha =>
    have hmem := tableEntry_mem ha
    simp only [functionTable, List.mem_cons, Prod.mk.injEq, List.not_mem_nil, or_false] at hmem
    exact absurd (by unfold recognisedFunction; tauto) h
  next => rfl

theorem controlUnit_of_unrecognised_function {f : FunctionCode} (h : ¬ recognisedFunction f) (c : Config) :
    controlUnit c 0x00#6 f = .err (.unsupportedFunctionCode f) := by
  rw [controlUnit_rType, aluControl_of_unrecognised_function h, Result.andThen]

/-- Settles O13: none of the five opcodes and five function codes is recognised, so each failure is the general one. -/
theorem systemAtomicAndCallCodesFail : Obligations.SystemAtomicAndCallCodesFail := by
  intro c f
  have hop (op : Opcode) (h : ¬ recognisedOpcode c op) := controlUnit_of_unrecognised_opcode h f
  have hfun (g : FunctionCode) (h : ¬ recognisedFunction g) := controlUnit_of_unrecognised_function h c
  refine ⟨hfun _ ?_, hop _ ?_, hop _ ?_, hop _ ?_, hop _ ?_, hfun _ ?_, hfun _ ?_, hfun _ ?_, hfun _ ?_, hop _ ?_⟩
  all_goals simp [recognisedOpcode, recognisedFunction]

end Sys2Proof.Machine
end

section
/-! PROOFS. The encoding (spec/30_encoding.md): which codes the Control Unit recognises, that words and instructions
determine each other, the port codes, and that no meaning looks at `shamt`. -/

namespace Sys2Proof

open Sys2Proof.Machine

/-! ### Decoding an encoded instruction -/

@[simp] theorem decode_encode (i : Instr) : decode (encode i) = .ok i := by
  cases i <;> simp [encode, decode, decodeRType]

section Bytes

variable {w : Word} {i : Instr}

/-- The bytes of a word are read in the order they were laid out in, so they decode as the word does. -/
theorem decodeBytes_bytesOfWord (order : ByteOrder) (h : decode w = .ok i) :
    decodeBytes order (bytesOfWord order w) = .ok i := by
  simp [decodeBytes, bytesOfWord, h]

/-- The opcode table numbers a word by its bits, so its number under 32 bits decodes as the word does. -/
theorem decodeTableWord_toNat (h : decode w = .ok i) : decodeTableWord 32 w.toNat = some i := by
  have hword : BitVec.ofNat 32 (w.toNat % 2 ^ 32) = w := by
    rw [Nat.mod_eq_of_lt w.isLt, BitVec.ofNat_toNat, BitVec.setWidth_eq]
  rw [decodeTableWord, hword, decodeBytes_bytesOfWord .little h]

end Bytes

/-- Settles O17: the word decodes to its instruction, and its bytes and its table number decode as the word does. -/
theorem decodeOfEncodeIsIdentity : Obligations.DecodeOfEncodeIsIdentity := fun i =>
  ⟨decode_encode i, fun order => decodeBytes_bytesOfWord order (decode_encode i),
    decodeTableWord_toNat (decode_encode i)⟩

/-! ### Encoding a decoded word -/

section Fields

variable {w : Word}

theorem encodeR_of_fields {f : FunctionCode} (hop : opcodeOf w = 0x00#6) (hf : functOf w = f) :
    encodeR (rsOf w) (rtOf w) (rdOf w) (shamtOf w) f = w := by
  rw [encodeR, ← hop, ← hf]
  exact word_of_r_fields w

theorem encodeI_of_fields {op : Opcode} (hop : opcodeOf w = op) :
    encodeI op (rsOf w) (rtOf w) (immOf w) = w := by
  rw [encodeI, ← hop]
  exact word_of_i_fields w

theorem encodeJ_of_fields (hop : opcodeOf w = 0x02#6) : encodeJ (targetOf w) = w := by
  rw [encodeJ, ← hop]
  exact word_of_j_fields w

/-- A success of the R-format decoder, under its opcode, is an instruction whose word it is. -/
theorem encode_of_decodeRType {i : Instr} (hop : opcodeOf w = 0x00#6) (h : decodeRType w = .ok i) :
    encode i = w := by
  unfold decodeRType at h
  (repeat' split at h) <;> cases h
  all_goals exact encodeR_of_fields hop ‹_›

end Fields

/-- Settles O18: each row of the decoder reads the fields of its format, and a word is its fields put together. -/
theorem encodeOfDecodeIsIdentity : Obligations.EncodeOfDecodeIsIdentity := by
  intro w i h
  unfold decode at h
  split at h
  next hop => exact encode_of_decodeRType hop h
  (repeat' split at h) <;> cases h
  · exact encodeI_of_fields ‹_›
  · exact encodeI_of_fields ‹_›
  · exact encodeI_of_fields ‹_›
  · exact encodeJ_of_fields ‹_›

end Sys2Proof

namespace Sys2Proof.Machine

/-! ### The three results of the Control Unit -/

theorem recognisedOpcode_rType (c : Config) : recognisedOpcode c 0x00#6 := .inl rfl

theorem aluControl_of_recognised_function {f : FunctionCode} (h : recognisedFunction f) :
    ∃ a, aluControl .funct f = .ok a := by
  obtain rfl | rfl | rfl | rfl | rfl := h
  · exact ⟨.add, rfl⟩
  · exact ⟨.sub, rfl⟩
  · exact ⟨.and, rfl⟩
  · exact ⟨.or, rfl⟩
  · exact ⟨.slt, rfl⟩

theorem controlUnit_of_recognised {c : Config} {op : Opcode} {f : FunctionCode} (hop : recognisedOpcode c op)
    (hf : op = 0x00#6 → recognisedFunction f) : ∃ v, controlUnit c op f = .ok v := by
  obtain rfl | rfl | rfl | rfl | ⟨rfl, hj⟩ := hop
  · obtain ⟨a, ha⟩ := aluControl_of_recognised_function (hf rfl)
    exact ⟨_, by rw [controlUnit_rType, ha, Result.andThen]⟩
  · exact ⟨_, controlUnit_lw c f⟩
  · exact ⟨_, controlUnit_sw c f⟩
  · exact ⟨_, controlUnit_beq c f⟩
  · exact ⟨_, controlUnit_j c f hj⟩

/-- Everything the Control Unit can answer, with what decides it (R76, R77, R80). -/
theorem controlUnit_cases (c : Config) (op : Opcode) (f : FunctionCode) :
    (¬ recognisedOpcode c op ∧ controlUnit c op f = .err (.unsupportedOpcode op)) ∨
    (op = 0x00#6 ∧ ¬ recognisedFunction f ∧ controlUnit c op f = .err (.unsupportedFunctionCode f)) ∨
    (recognisedOpcode c op ∧ (op = 0x00#6 → recognisedFunction f) ∧ ∃ v, controlUnit c op f = .ok v) := by
  by_cases hop : recognisedOpcode c op
  · by_cases hf : op = 0x00#6 → recognisedFunction f
    · exact .inr (.inr ⟨hop, hf, controlUnit_of_recognised hop hf⟩)
    · obtain ⟨rfl, hf'⟩ := Classical.not_imp.1 hf
      exact .inr (.inl ⟨rfl, hf', controlUnit_of_unrecognised_function hf' c⟩)
  · exact .inl ⟨hop, controlUnit_of_unrecognised_opcode hop f⟩

/-- Outside the R-type opcode the function code is not consulted (R110). -/
theorem controlUnit_congr_function {op : Opcode} (hop : op ≠ 0x00#6) (c : Config) (f g : FunctionCode) :
    controlUnit c op f = controlUnit c op g := by
  by_cases h : recognisedOpcode c op
  · obtain h0 | rfl | rfl | rfl | ⟨rfl, hj⟩ := h
    · exact absurd h0 hop
    · rw [controlUnit_lw, controlUnit_lw]
    · rw [controlUnit_sw, controlUnit_sw]
    · rw [controlUnit_beq, controlUnit_beq]
    · rw [controlUnit_j c f hj, controlUnit_j c g hj]
  · rw [controlUnit_of_unrecognised_opcode h, controlUnit_of_unrecognised_opcode h]

/-- Settles O5: of the three answers only the first names an opcode. -/
theorem unsupportedOpcodeExactlyWhenUnrecognised : Obligations.UnsupportedOpcodeExactlyWhenUnrecognised := by
  intro c op x f
  obtain ⟨hop, hr⟩ | ⟨rfl, -, hr⟩ | ⟨hop, -, v, hr⟩ := controlUnit_cases c op f
  · simp [hr, hop, eq_comm]
  · simp [hr, recognisedOpcode_rType]
  · simp [hr, hop]

/-- Settles O6: only the second names a function code, and its opcode is a recognised one. -/
theorem unsupportedFunctionCodeExactlyUnderRType : Obligations.UnsupportedFunctionCodeExactlyUnderRType := by
  intro c op f x
  obtain ⟨hop, hr⟩ | ⟨rfl, hf, hr⟩ | ⟨-, hf, v, hr⟩ := controlUnit_cases c op f
  · have hne : op ≠ 0x00#6 := fun h => hop (h ▸ recognisedOpcode_rType c)
    simp [hr, hne]
  · simp [hr, hf, eq_comm]
  · simpa [hr] using fun _ => hf

/-- Settles O7: only the third is a success. -/
theorem successExactlyOnRecognisedInstructions : Obligations.SuccessExactlyOnRecognisedInstructions := by
  intro c op f
  obtain ⟨hop, hr⟩ | ⟨rfl, hf, hr⟩ | ⟨hop, hf, hr⟩ := controlUnit_cases c op f
  · simp [hr, hop]
  · simp [hr, hf]
  · exact iff_of_true hr ⟨hop, hf⟩

/-! ### The decoder and the Control Unit -/

/-- The codes of an instruction are recognised exactly when the configuration recognises the instruction: J's opcode
needs `JUMP_ENABLED`, and every R-type constructor has a recognised function code (R73 to R75). -/
theorem recognised_codes_iff_wellFormed (c : Config) (i : Instr) :
    recognisedOpcode c i.opcode ∧ (i.opcode = 0x00#6 → recognisedFunction i.functionCode) ↔
      i.wellFormed c = true := by
  cases i <;> simp [Instr.opcode, Instr.functionCode, Instr.wellFormed, recognisedOpcode, recognisedFunction]

/-- The word of every instruction carries the instruction's opcode and function code. -/
theorem codes_encode (i : Instr) : opcodeOf (encode i) = i.opcode ∧ functOf (encode i) = i.functionCode := by
  cases i with
  | add rs rt rd shamt => exact Laws.EncodedCodes.add rs rt rd shamt
  | sub rs rt rd shamt => exact Laws.EncodedCodes.sub rs rt rd shamt
  | and rs rt rd shamt => exact Laws.EncodedCodes.and rs rt rd shamt
  | or rs rt rd shamt => exact Laws.EncodedCodes.or rs rt rd shamt
  | slt rs rt rd shamt => exact Laws.EncodedCodes.slt rs rt rd shamt
  | lw rs rt imm => exact Laws.EncodedCodes.lw rs rt imm
  | sw rs rt imm => exact Laws.EncodedCodes.sw rs rt imm
  | beq rs rt imm => exact Laws.EncodedCodes.beq rs rt imm
  | j target => exact Laws.EncodedCodes.j target

/-- What the decoder rejects, and the failure it names: a function code under opcode 0x00, or an opcode that no
configuration recognises. -/
theorem decode_err_cases {w : Word} {e : Failure} (h : decode w = .err e) :
    (opcodeOf w = 0x00#6 ∧ ¬ recognisedFunction (functOf w) ∧ e = .unsupportedFunctionCode (functOf w)) ∨
    ((∀ c, ¬ recognisedOpcode c (opcodeOf w)) ∧ e = .unsupportedOpcode (opcodeOf w)) := by
  unfold decode at h
  split at h
  next hop =>
    unfold decodeRType at h
    (repeat' split at h) <;> cases h
    exact .inl ⟨hop, by simp [recognisedFunction, *], rfl⟩
  next =>
    (repeat' split at h) <;> cases h
    exact .inr ⟨by simp [recognisedOpcode, *], rfl⟩

/-- Settles O20: a rejected word has an unrecognised code, and a decoded one is its instruction's encoding (O18), so the
Control Unit sees the instruction's own codes. -/
theorem decoderAgreesWithControlUnit : Obligations.DecoderAgreesWithControlUnit := by
  refine fun c w => ⟨fun e h => ?_, fun i h => ?_⟩
  · obtain ⟨hop, hf, rfl⟩ | ⟨hop, rfl⟩ := decode_err_cases h
    · rw [hop, controlUnit_of_unrecognised_function hf]
    · exact controlUnit_of_unrecognised_opcode (hop c) _
  · obtain rfl := encodeOfDecodeIsIdentity w i h
    obtain ⟨hop, hf⟩ := codes_encode i
    rw [hop, hf, successExactlyOnRecognisedInstructions, recognised_codes_iff_wellFormed]

/-! ### Counting the input space -/

/-- Counting over the pairs of a quotient and a remainder goes row by row. -/
theorem countP_range_mul {b : Nat} (hb : 0 < b) (p : Nat → Nat → Bool) (a : Nat) :
    (List.range (a * b)).countP (fun n => p (n / b) (n % b)) =
      ((List.range a).map fun i => (List.range b).countP (p i)).sum := by
  induction a with
  | zero => simp
  | succ a ih =>
    have hrow : (List.range b).countP (fun j => p ((a * b + j) / b) ((a * b + j) % b)) =
        (List.range b).countP (p a) := by
      refine List.countP_congr fun j hj => ?_
      have hj : j < b := List.mem_range.1 hj
      rw [Nat.mul_comm, Nat.mul_add_div hb, Nat.div_eq_of_lt hj, Nat.add_zero, Nat.mul_add_mod, Nat.mod_eq_of_lt hj]
    rw [Nat.succ_mul, List.range_add, List.countP_append, List.countP_map, ih, List.range_succ, List.map_append,
      List.sum_append]
    simpa [Function.comp_def] using hrow

/-- How many function codes give an `err` code under an opcode, without jump. -/
def errCount (code : BitVec 2) (op : Opcode) : Nat :=
  (List.range 64).countP fun n => errPort (controlUnit Config.reset op (BitVec.ofNat 6 n)) == code

/-- A row other than the R-type one is constant in the function code: all 64 of them give the code, or none. -/
theorem errCount_of_ne_rType (code : BitVec 2) {op : Opcode} (hop : op ≠ 0x00#6) :
    errCount code op = if errPort (controlUnit Config.reset op 0x00#6) = code then 64 else 0 := by
  simp only [errCount, controlUnit_congr_function hop Config.reset _ 0x00#6]
  split
  next h => simp [h]
  next h => simp [h]

/-- The R-type row: five function codes succeed and the other 59 fail. -/
theorem errCount_rType :
    errCount 0b00#2 0x00#6 = 5 ∧ errCount 0b01#2 0x00#6 = 0 ∧ errCount 0b10#2 0x00#6 = 59 := by
  decide

/-- The count over all 4096 pairs is one evaluation per opcode, once the R-type row is known. -/
theorem countP_errPort {code : BitVec 2} {r : Nat} (hr : errCount code 0x00#6 = r) :
    ((List.range 4096).map fun n =>
        controlUnit Config.reset (BitVec.ofNat 6 (n / 64)) (BitVec.ofNat 6 (n % 64))).countP
      (fun res => errPort res == code) =
    ((List.range 64).map fun n =>
      if BitVec.ofNat 6 n = 0x00#6 then r
      else if errPort (controlUnit Config.reset (BitVec.ofNat 6 n) 0x00#6) = code then 64 else 0).sum := by
  have hrow (op : Opcode) : errCount code op =
      if op = 0x00#6 then r else if errPort (controlUnit Config.reset op 0x00#6) = code then 64 else 0 := by
    split
    next h => rw [h, hr]
    next h => exact errCount_of_ne_rType code h
  simp only [← hrow]
  rw [List.countP_map]
  exact countP_range_mul (b := 64) (by decide)
    (fun i j => errPort (controlUnit Config.reset (BitVec.ofNat 6 i) (BitVec.ofNat 6 j)) == code) 64

/-- Settles O8: the R-type row gives 5 and 59, the rows of LW, SW and BEQ 64 successes each, and the other 60 rows 64
failures each. -/
theorem inputSpaceCountsWithoutJump : Obligations.InputSpaceCountsWithoutJump := by
  obtain ⟨h0, h1, h2⟩ := errCount_rType
  refine ⟨(countP_errPort h0).trans ?_, (countP_errPort h1).trans ?_, (countP_errPort h2).trans ?_⟩
  · decide
  · decide
  · decide

/-! ### Port codes -/

theorem aluOpOfPort_aluOpPort (op : ALUOp) : aluOpOfPort (aluOpPort op) = some op := by
  cases op <;> rfl

theorem aluOpPort_of_aluOpOfPort {p : BitVec 2} {op : ALUOp} (h : aluOpOfPort p = some op) : aluOpPort op = p := by
  unfold aluOpOfPort at h
  (repeat' split at h) <;> cases h
  all_goals exact ‹p = _›.symm

theorem aluControlOfCode_aluControlCode (a : ALUControl) : aluControlOfCode (aluControlCode a) = some a := by
  cases a <;> rfl

theorem aluControlCode_of_aluControlOfCode {p : BitVec 4} {a : ALUControl} (h : aluControlOfCode p = some a) :
    aluControlCode a = p := by
  unfold aluControlOfCode at h
  (repeat' split at h) <;> cases h
  all_goals exact ‹p = _›.symm

/-- Settles O14: the codes are the tables', and each reading of a code is the inverse of its table. -/
theorem portCodesOfEnumerations : Obligations.PortCodesOfEnumerations :=
  ⟨rfl, rfl, rfl, rfl, rfl, rfl, rfl, rfl,
    fun _ op => ⟨aluOpPort_of_aluOpOfPort, fun h => h ▸ aluOpOfPort_aluOpPort op⟩,
    fun _ a => ⟨aluControlCode_of_aluControlOfCode, fun h => h ▸ aluControlOfCode_aluControlCode a⟩⟩

/-! ### The R-type cycle and `shamt` -/

section RType

variable (s : State) (a : ALUControl) (rs rt rd : RegIndex) (shamt : BitVec 5) (funct : FunctionCode)

/-- The datapath's cycle under an R-type vector: of the word's fields only the three registers count (R81, R151 to
R155). -/
theorem datapath_rTypeVector :
    datapath (rTypeVector s.config a) (rFields rs rt rd shamt funct) s = .next
      { s with
        regs := setReg s.regs rd (aluResult a (getReg s.regs rs) (getReg s.regs rt))
        pc := s.pc + 4#32
        output := some (.ok (rTypeVector s.config a)) } := by
  rw [datapath_of_no_access rfl rfl, cycleState, nextPc_sequential rfl (jumpField_false_ne s.config)]
  rfl

theorem exec_add : exec (.add rs rt rd shamt) s =
    datapath (rTypeVector s.config .add) (rFields rs rt rd shamt 0x20#6) s := rfl

theorem exec_sub : exec (.sub rs rt rd shamt) s =
    datapath (rTypeVector s.config .sub) (rFields rs rt rd shamt 0x22#6) s := rfl

theorem exec_and : exec (.and rs rt rd shamt) s =
    datapath (rTypeVector s.config .and) (rFields rs rt rd shamt 0x24#6) s := rfl

theorem exec_or : exec (.or rs rt rd shamt) s =
    datapath (rTypeVector s.config .or) (rFields rs rt rd shamt 0x25#6) s := rfl

theorem exec_slt : exec (.slt rs rt rd shamt) s =
    datapath (rTypeVector s.config .slt) (rFields rs rt rd shamt 0x2A#6) s := rfl

end RType

/-- Settles O42: each of the five is the R-type cycle, which reads the three registers only. -/
theorem shamtHasNoEffect : Obligations.ShamtHasNoEffect := by
  intro s rs rt rd sh sh'
  simp only [exec_add, exec_sub, exec_and, exec_or, exec_slt, datapath_rTypeVector, and_self]

end Sys2Proof.Machine
end

section
/-! PROOFS. The main decode (spec/40_main_decode.md): its table, what tells the tuples apart, and what a decode does not
depend on. -/

namespace Sys2Proof.Machine

/-! ### The table of tuples -/

theorem recognisedOpcode_of_mainDecode {c : Config} {op : Opcode} {m : MainSignals} (h : mainDecode c op = .ok m) :
    recognisedOpcode c op :=
  (mainDecode_cases h).imp And.left (.imp And.left (.imp And.left (.imp And.left fun ⟨hop, _, hj⟩ => ⟨hop, hj⟩)))

theorem mainDecode_of_unrecognised_opcode {c : Config} {op : Opcode} (h : ¬ recognisedOpcode c op) :
    mainDecode c op = .err (.unsupportedOpcode op) := by
  cases hm : mainDecode c op with
  | ok m => exact absurd (recognisedOpcode_of_mainDecode hm) h
  | err e => rw [mainDecode_err hm]

/-- Settles O3: a recognised opcode is one of the table's five (J's with `JUMP_ENABLED`), whose tuple is the one written
out; any other has no entry, and the failure names it (R107). -/
theorem mainDecodeMatchesTable : Obligations.MainDecodeMatchesTable := by
  intro c op
  by_cases h : recognisedOpcode c op
  · obtain rfl | rfl | rfl | rfl | ⟨rfl, hj⟩ := h
    · rfl
    · rfl
    · rfl
    · rfl
    · simp [mainDecode_j c hj, mainJ, jumpField, hj]
  · rw [mainDecode_of_unrecognised_opcode h]
    simp only [recognisedOpcode, not_or] at h
    obtain ⟨hr, hlw, hsw, hbeq, hj⟩ := h
    rw [if_neg hr, if_neg hlw, if_neg hsw, if_neg hbeq, if_neg hj]

/-! ### What tells the tuples apart -/

/-- The opcode a tuple is the tuple of, read off four signals (R102 to R106): `RegDst` is R-type's alone, `MemRead`
LW's, `MemWrite` SW's, `Branch` BEQ's, and J's tuple has none of them. -/
def opcodeOfSignals (m : MainSignals) : Opcode :=
  if m.regDst then 0x00#6
  else if m.memRead then 0x23#6
  else if m.memWrite then 0x2B#6
  else if m.branch then 0x04#6
  else 0x02#6

theorem opcodeOfSignals_of_mainDecode {c : Config} {op : Opcode} {m : MainSignals} (h : mainDecode c op = .ok m) :
    opcodeOfSignals m = op := by
  obtain ⟨rfl, rfl⟩ | ⟨rfl, rfl⟩ | ⟨rfl, rfl⟩ | ⟨rfl, rfl⟩ | ⟨rfl, rfl, -⟩ := mainDecode_cases h
  · rfl
  · rfl
  · rfl
  · rfl
  · rfl

/-- A tuple has a 1-bit signal that is 1: `RegDst`, `ALUSrc` or `Branch`, and in J's tuple the `Jump` bit alone. -/
theorem mainDecode_nonzero {c : Config} {op : Opcode} {m : MainSignals} (h : mainDecode c op = .ok m) :
    (m.regDst || m.aluSrc || m.memToReg || m.regWrite || m.memWrite || m.memRead || m.branch
      || m.jump == some true) = true := by
  obtain ⟨-, rfl⟩ | ⟨-, rfl⟩ | ⟨-, rfl⟩ | ⟨-, rfl⟩ | ⟨-, rfl, hj⟩ := mainDecode_cases h
  · rfl
  · rfl
  · rfl
  · rfl
  · simp [mainJ, jumpField, hj]

/-- Settles O10: the main decode has a left inverse, so two opcodes with one tuple are the same. -/
theorem eachClassHasItsOwnNonzeroTuple : Obligations.EachClassHasItsOwnNonzeroTuple := fun _ _ _ _ h =>
  ⟨fun h' => (opcodeOfSignals_of_mainDecode h').symm.trans (opcodeOfSignals_of_mainDecode h), mainDecode_nonzero h⟩

/-! ### What a decode does not depend on -/

/-- Settles O9: only the `Funct` operation consults the function code, and only R-type's tuple has it (R110). -/
theorem functionCodeIgnoredOutsideRType : Obligations.FunctionCodeIgnoredOutsideRType := fun c _ f g hop =>
  controlUnit_congr_function hop c f g

section Congr

variable {c d : Config} (h : c.jumpEnabled = d.jumpEnabled)
include h

theorem jumpField_congr (value : Bool) : jumpField c value = jumpField d value := by
  rw [jumpField, jumpField, h]

/-- The configuration enters the table by the tuples' `Jump` fields and by J's row only (R111). -/
theorem mainTable_congr : mainTable c = mainTable d := by
  simp only [mainTable, mainRType, mainLw, mainSw, mainBeq, mainJ, jumpField_congr h, h]

theorem mainDecode_congr_config (op : Opcode) : mainDecode c op = mainDecode d op := by
  rw [mainDecode, mainDecode, mainTable_congr h]

end Congr

/-- Settles O12: the sub-decode reads no configuration, and the main decode reads `JUMP_ENABLED` only. -/
theorem decodeDependsOnJumpEnabledOnly : Obligations.DecodeDependsOnJumpEnabledOnly := by
  intro c d op f h
  rw [controlUnit, controlUnit, mainDecode_congr_config h]

end Sys2Proof.Machine
end

section
/-! PROOFS. The ALU-control sub-decode and the reference ALU (spec/41_alu_control.md): the sub-decode's table, its
standalone port, and what each of the five operations computes. -/

namespace Sys2Proof.Machine

/-! ### What the reference ALU computes -/

section Operations

variable (a b : Word)

@[simp] theorem aluResult_add : aluResult .add a b = a + b := rfl
@[simp] theorem aluResult_sub : aluResult .sub a b = a - b := rfl
@[simp] theorem aluResult_and : aluResult .and a b = a &&& b := rfl
@[simp] theorem aluResult_or : aluResult .or a b = a ||| b := rfl
@[simp] theorem aluResult_slt : aluResult .slt a b = if a.toInt < b.toInt then 1#32 else 0#32 := rfl

end Operations

/-- The signed reading of a word that the model compares by is the two's-complement value, told by the top bit. -/
theorem toInt_eq_signedValue (w : Word) : w.toInt = signedValue w := by
  rw [signedValue, BitVec.toInt_eq_toNat_cond]
  by_cases h : w.toNat < 2 ^ 31
  · rw [if_pos h, if_pos (by omega)]
  · rw [if_neg h, if_neg (by omega)]
    rfl

/-- Settles O24: the ALU compares the words' signed values. -/
theorem aluSetLessThanIsSigned : Obligations.AluSetLessThanIsSigned := by
  intro a b
  rw [aluResult_slt, toInt_eq_signedValue, toInt_eq_signedValue]

/-- The unsigned value of a difference of words is the difference of their values modulo 2^32, taken in the integers
so that a negative difference wraps (R135). -/
theorem toNat_sub_eq_emod (a b : Word) : ((a - b).toNat : Int) = ((a.toNat : Int) - b.toNat) % 2 ^ 32 := by
  have ha := a.isLt
  have hb := b.isLt
  rw [BitVec.toNat_sub]
  omega

/-- Settles O22: the ALU's sum and difference are those of 32-bit words. -/
theorem aluAddsAndSubtractsModulo : Obligations.AluAddsAndSubtractsModulo := by
  intro a b
  rw [aluResult_add, aluResult_sub]
  exact ⟨BitVec.toNat_add a b, toNat_sub_eq_emod a b⟩

/-- Settles O23: the ALU's AND and OR act on each bit of a word by itself. -/
theorem aluAndOrAreBitwise : Obligations.AluAndOrAreBitwise := by
  intro a b k _
  rw [aluResult_and, aluResult_or]
  exact ⟨BitVec.getLsbD_and, BitVec.getLsbD_or⟩

@[simp] theorem zeroFlag_eq_true_iff (result : Word) : zeroFlag result = true ↔ result = 0#32 := beq_iff_eq

/-- Settles O25: the flag tests the result for 0, and a difference is 0 exactly between equal words. -/
theorem zeroFlagTellsEquality : Obligations.ZeroFlagTellsEquality := by
  refine ⟨zeroFlag_eq_true_iff, fun a b => ?_⟩
  rw [zeroFlag_eq_true_iff, aluResult_sub]
  exact sub_eq_zero

/-! ### The sub-decode's table and its standalone port -/

/-- Settles O4: a recognised function code is one of the table's five, and any other fails with its own name (R130). -/
theorem aluControlMatchesTable : Obligations.AluControlMatchesTable := by
  refine fun f => ⟨rfl, rfl, ?_⟩
  by_cases h : recognisedFunction f
  · obtain rfl | rfl | rfl | rfl | rfl := h
    · rfl
    · rfl
    · rfl
    · rfl
    · rfl
  · rw [aluControl_of_unrecognised_function h]
    simp only [recognisedFunction, not_or] at h
    obtain ⟨hadd, hsub, hand, hor, hslt⟩ := h
    rw [if_neg hadd, if_neg hsub, if_neg hand, if_neg hor, if_neg hslt]

@[simp] theorem aluOpOfPort_three : aluOpOfPort 0b11#2 = none := rfl

/-- The fourth port code stands for no operation, so it is no operation's code (R132). -/
theorem aluOpPort_ne_three (op : ALUOp) : aluOpPort op ≠ 0b11#2 := by
  intro h
  have hop := aluOpOfPort_aluOpPort op
  rw [h, aluOpOfPort_three] at hop
  cases hop

theorem aluControlPort_aluOpPort (op : ALUOp) (f : FunctionCode) :
    aluControlPort (aluOpPort op) f = .next (aluControl op f) := by
  rw [aluControlPort, aluOpOfPort_aluOpPort]

theorem aluControlPort_three (f : FunctionCode) :
    aluControlPort 0b11#2 f = .refused (.aluOpOutOfDomain 0b11#2) := by
  rw [aluControlPort, aluOpOfPort_three]

/-- Settles O16: the port refuses the one code that is outside the enumeration, which no `ALUOp` has, so no tuple's. -/
theorem standaloneAluControlRefusesFourthCode : Obligations.StandaloneAluControlRefusesFourthCode :=
  ⟨aluControlPort_three, aluControlPort_aluOpPort, fun _ _ m _ => aluOpPort_ne_three m.aluOp⟩

end Sys2Proof.Machine
end

section
/-! PROOFS. The meaning of every instruction (spec/42_instructions.md sections 2 and 4): each is one cycle of the datapath
under the vector of its rule, and what a cycle leaves unchanged is read off that vector. -/

namespace Sys2Proof.Machine

/-- Settles O26: the index is 0, the one just written, or another. -/
theorem registerZeroIsHardWired : Obligations.RegisterZeroIsHardWired := by
  refine fun regs r q v => ⟨rfl, setReg_zero regs v, ?_⟩
  by_cases hq : q = r
  · subst hq
    by_cases h0 : q = 0#5
    · simp [h0]
    · simp [h0, getReg_setReg_same]
  · simp [hq, getReg_setReg_of_ne]

/-! ### The next pc -/

/-- The three parts of a jump's address do not overlap, so their values add (R166). -/
theorem toNat_jumpTarget (pc : Word) (f : Fields) :
    (jumpTarget pc f).toNat = (pc + 4#32).toNat / 2 ^ 28 * 2 ^ 28 + f.target.toNat * 4 := by
  have hpc := (pc + 4#32).isLt
  have htarget := f.target.isLt
  rw [jumpTarget, BitVec.toNat_cast, BitVec.toNat_append, ← Nat.shiftLeft_add_eq_or_of_lt (by decide),
    BitVec.toNat_append, ← Nat.shiftLeft_add_eq_or_of_lt htarget, BitVec.extractLsb'_toNat]
  simp only [Nat.shiftLeft_eq, Nat.shiftRight_eq_div_pow, BitVec.toNat_ofNat]
  omega

theorem toNat_add_four_mod {pc : Word} (h : pc.toNat % 4 = 0) : (pc + 4#32).toNat % 4 = 0 := by
  rw [BitVec.toNat_add, BitVec.toNat_ofNat]
  omega

/-- The displacement of a branch is shifted left by 2, so it is a multiple of 4. -/
theorem toNat_branchTarget_mod {pc : Word} (f : Fields) (h : pc.toNat % 4 = 0) :
    (branchTarget pc f).toNat % 4 = 0 := by
  have hnext := toNat_add_four_mod h
  rw [branchTarget, BitVec.toNat_add, BitVec.toNat_shiftLeft, Nat.shiftLeft_eq]
  omega

/-- Settles O57: each of the three places the next pc can be is a multiple of 4. -/
theorem nextPcStaysAligned : Obligations.NextPcStaysAligned := by
  intro c f result pc h
  obtain hb | hj | hs := nextPc_cases (c := c) (f := f) (result := result) (pc := pc)
  · rw [hb]
    exact toNat_branchTarget_mod f h
  · rw [hj, toNat_jumpTarget]
    omega
  · rw [hs]
    exact toNat_add_four_mod h

/-! ### The R-type instructions -/

/-- Settles O31: the R-type cycle under ADD. -/
theorem addExecutes : Obligations.AddExecutes := by
  intro s rs rt rd sh
  rw [exec_add, datapath_rTypeVector, aluResult_add]

/-- Settles O32: the R-type cycle under SUB. -/
theorem subExecutes : Obligations.SubExecutes := by
  intro s rs rt rd sh
  rw [exec_sub, datapath_rTypeVector, aluResult_sub]

/-- Settles O33: the R-type cycle under AND. -/
theorem andExecutes : Obligations.AndExecutes := by
  intro s rs rt rd sh
  rw [exec_and, datapath_rTypeVector, aluResult_and]

/-- Settles O34: the R-type cycle under OR. -/
theorem orExecutes : Obligations.OrExecutes := by
  intro s rs rt rd sh
  rw [exec_or, datapath_rTypeVector, aluResult_or]

/-- Settles O35: the R-type cycle under SLT, whose comparison is of signed values (O24). -/
theorem sltExecutes : Obligations.SltExecutes := by
  intro s rs rt rd sh
  rw [exec_slt, datapath_rTypeVector, aluSetLessThanIsSigned]

/-! ### Load and store -/

/-- Settles O36: the address is the ALU's result, so at an accessible one LW's cycle goes on. -/
theorem lwLoadsAlignedWord : Obligations.LwLoadsAlignedWord := by
  refine ⟨controlUnit_lw, fun s rs rt imm hacc => ?_⟩
  rw [exec_lw, datapath_of_accessible hacc, cycleState, nextPc_sequential rfl (jumpField_false_ne s.config)]
  rfl

/-- Settles O37: likewise SW's. -/
theorem swStoresAlignedWord : Obligations.SwStoresAlignedWord := by
  refine ⟨controlUnit_sw, fun s rs rt imm hacc => ?_⟩
  rw [exec_sw, datapath_of_accessible hacc, cycleState, nextPc_sequential rfl (jumpField_false_ne s.config)]
  rfl

/-! ### Branch and jump -/

/-- BEQ is the datapath's cycle under its vector (R158). -/
theorem exec_beq (s : State) (rs rt : RegIndex) (imm : BitVec 16) :
    exec (.beq rs rt imm) s = datapath (beqVector s.config) (iFields rs rt imm) s := rfl

/-- With `JUMP_ENABLED`, J is the datapath's cycle under its vector (R159). -/
theorem exec_j {s : State} (h : s.config.jumpEnabled = true) (target : BitVec 26) :
    exec (.j target) s = datapath jVector (jFields target) s := by
  rw [exec, execJ, controlUnit_j _ _ h, consume, mainJ, jumpField, if_pos h]
  rfl

theorem jFields_target (target : BitVec 26) : (jFields target).target = target := rfl

theorem exec_j_disabled {s : State} (h : s.config.jumpEnabled = false) (target : BitVec 26) :
    exec (.j target) s = .next (takeFailure (.unsupportedOpcode 0x02#6) s) := by
  rw [exec, execJ, controlUnit_j_disabled _ _ h, consume]

/-- Under BEQ's vector the ALU's difference is 0 exactly when the two registers are equal (R139, R158). -/
theorem nextPc_beqVector (c : Config) (f : Fields) (a b pc : Word) :
    nextPc (beqVector c) f (aluResult .sub a b) pc = if a = b then branchTarget pc f else pc + 4#32 := by
  have hflag := zeroFlagTellsEquality.2 a b
  have hjump : (beqVector c).jump ≠ some true := jumpField_false_ne c
  simp only [nextPc, hjump, if_false, Bool.and_eq_true, hflag]
  exact if_congr (and_iff_right rfl) rfl rfl

/-- Settles O39: BEQ accesses no memory, writes nothing back, and its next pc is by equality. -/
theorem beqBranchesOnEqual : Obligations.BeqBranchesOnEqual := by
  intro s rs rt imm
  have hpc := nextPc_beqVector s.config (iFields rs rt imm) (getReg s.regs rs) (getReg s.regs rt) s.pc
  rw [exec_beq, datapath_of_no_access rfl rfl]
  exact congrArg (fun pc => Host.Outcome.next { s with pc := pc, output := some (.ok (beqVector s.config)) }) hpc

/-- Settles O40: under J's vector the next pc is the jump's address, whose value is arithmetic on its three parts. -/
theorem jumpExecutesWhenEnabled : Obligations.JumpExecutesWhenEnabled := by
  refine fun s target => ⟨fun h => ?_, fun h => exec_j_disabled h target⟩
  have haddr := toNat_jumpTarget s.pc (jFields target)
  rw [jFields_target] at haddr
  rw [exec_j h, datapath_of_no_access rfl rfl]
  rw [← haddr, BitVec.ofNat_toNat, BitVec.setWidth_eq]
  rfl

/-! ### Frames -/

section Frames

variable {c : ControlSignals} {f : Fields} {s : State}

theorem cycleState_keepsTheRest : keepsTheRest s (cycleState c f s) := ⟨rfl, rfl, rfl, rfl⟩

theorem cycleState_keepsRegsBut {d : RegIndex} (hd : destination c.regDst f = d) :
    keepsRegsBut d s (cycleState c f s) :=
  fun _ hq => getReg_cycleRegs_of_ne (hd.symm ▸ hq)

theorem cycleState_keepsRegs (h : c.regWrite = false) : keepsRegs s (cycleState c f s) := by
  intro q
  rw [cycleState_regs, cycleRegs_of_no_write h]

theorem cycleState_keepsData (h : c.memWrite = false) : keepsData s (cycleState c f s) := by
  intro a
  rw [cycleState_dmem, cycleMemory_of_no_write h]

theorem byteAt_cycleState_of_outside {a : Word} {b : Nat} (ha : cycleResult c f s = a)
    (hb : b < a.toNat ∨ a.toNat + 4 ≤ b) : byteAt (cycleState c f s).dmem b = byteAt s.dmem b := by
  subst ha
  exact byteAt_cycleMemory_of_outside hb

/-- A cycle that neither reads memory nor writes read data back draws no free value. -/
theorem cycleState_keepsDraws (hread : c.memRead = false) (hback : c.memToReg = false) :
    (cycleState c f s).draws = s.draws := by
  simp [cycleDraws, hread, hback]

end Frames

/-- The R-type cycle, whatever its operation, writes nothing but `rd`. -/
theorem datapath_rTypeVector_frame {s t : State} {a : ALUControl} {rs rt rd : RegIndex} {sh : BitVec 5}
    {funct : FunctionCode} (h : datapath (rTypeVector s.config a) (rFields rs rt rd sh funct) s = .next t) :
    keepsRegsBut rd s t ∧ keepsData s t ∧ keepsTheRest s t ∧ t.draws = s.draws := by
  obtain ⟨rfl, -⟩ := datapath_next h
  exact ⟨cycleState_keepsRegsBut rfl, cycleState_keepsData rfl, cycleState_keepsTheRest, cycleState_keepsDraws rfl rfl⟩

/-- Settles O43: each of the five is the R-type cycle under its operation. -/
theorem rTypeFrame : Obligations.RTypeFrame := by
  intro s t i rs rt rd sh hi h
  obtain rfl | rfl | rfl | rfl | rfl := hi
  · exact datapath_rTypeVector_frame (exec_add s rs rt rd sh ▸ h)
  · exact datapath_rTypeVector_frame (exec_sub s rs rt rd sh ▸ h)
  · exact datapath_rTypeVector_frame (exec_and s rs rt rd sh ▸ h)
  · exact datapath_rTypeVector_frame (exec_or s rs rt rd sh ▸ h)
  · exact datapath_rTypeVector_frame (exec_slt s rs rt rd sh ▸ h)

/-- Settles O44: LW's vector has `RegDst` 0, which selects `rt`, and `MemWrite` 0. -/
theorem lwFrame : Obligations.LwFrame := by
  intro s t rs rt imm h
  rw [exec_lw] at h
  obtain ⟨rfl, -⟩ := datapath_next h
  exact ⟨cycleState_keepsRegsBut rfl, cycleState_keepsData rfl, cycleState_keepsTheRest⟩

/-- Settles O45: SW's vector has `RegWrite` 0, and a store writes its four bytes only. -/
theorem swFrame : Obligations.SwFrame := by
  intro s t rs rt imm h
  rw [exec_sw] at h
  obtain ⟨rfl, -⟩ := datapath_next h
  exact ⟨cycleState_keepsRegs rfl, cycleState_keepsTheRest, cycleState_keepsDraws rfl rfl,
    fun _ => byteAt_cycleState_of_outside (cycleResult_swVector ..)⟩

/-- Settles O46: the vectors of BEQ and J enable no write; a disabled J takes a failure, which keeps registers, memories
and configuration under either policy. -/
theorem branchAndJumpFrame : Obligations.BranchAndJumpFrame := by
  refine fun s t rs rt imm target => ⟨fun h => ?_, fun h => ?_⟩
  · rw [exec_beq] at h
    obtain ⟨rfl, -⟩ := datapath_next h
    exact ⟨cycleState_keepsRegs rfl, cycleState_keepsData rfl, cycleState_keepsTheRest, cycleState_keepsDraws rfl rfl⟩
  · cases hj : s.config.jumpEnabled with
    | true =>
      rw [exec_j hj] at h
      obtain ⟨rfl, -⟩ := datapath_next h
      exact ⟨cycleState_keepsRegs rfl, cycleState_keepsData rfl, rfl, rfl, cycleState_keepsDraws rfl rfl,
        fun _ => cycleState_keepsTheRest⟩
    | false =>
      rw [exec_j_disabled hj] at h
      cases h
      simp [keepsRegs, keepsData]

end Sys2Proof.Machine
end

section
/-! PROOFS. The step (spec/42_instructions.md R163 to R166): it is one cycle under the Control Unit's answer to the fetched
word, and what it keeps, writes and reads follows from the cases of that answer. -/

namespace Sys2Proof.Machine

/-! ### The fetch -/

theorem aligned_alignDown (a : Word) : aligned (alignDown a) = true := by
  rw [aligned_iff, alignDown, BitVec.toNat_cast, BitVec.toNat_append, ← Nat.shiftLeft_add_eq_or_of_lt (by decide),
    Nat.shiftLeft_eq, BitVec.toNat_ofNat]
  omega

theorem fetch_loadAtPc (s : State) (w : Word) : fetch (loadAtPc s w) = .next w := by
  refine fetch_eq_next rfl ?_ (aligned_alignDown s.pc) (mappedWord_mapInstructionWord ..) writtenWord_storeWord
  rw [loadAtPc_programEnd, loadAtPc_pc]
  split
  · exact nofun
  · assumption

/-- Settles O60: loading meets each condition of the fetch, and the table numbers a word by its bits. -/
theorem placedWordIsFetchedNext : Obligations.PlacedWordIsFetchedNext := by
  intro s w
  rw [State.withFetchWord, Nat.mod_eq_of_lt w.isLt, BitVec.ofNat_toNat, BitVec.setWidth_eq]
  exact fetch_loadAtPc s w

theorem step_of_decoded {s : State} {w : Word} {i : Instr} (h : fetch s = .next w) (hi : decode w = .ok i) :
    step s = exec i s := by
  simp [step, h, hi]

theorem step_of_fetch_fault {s : State} {f : Fault} (h : fetch s = .fault f) : step s = .fault f := by
  simp [step, h]

theorem step_of_fetch_refused {s : State} {r : Refusal} (h : fetch s = .refused r) : step s = .refused r := by
  simp [step, h]

/-- Settles O49: the conditions are the fetch's. -/
theorem stepRunsDecodedInstruction : Obligations.StepRunsDecodedInstruction :=
  fun _ _ _ hrun hend halign hmap hword hi => step_of_decoded (fetch_eq_next hrun hend halign hmap hword) hi

/-- Settles O50: the fetch tests the five conditions in this order, and the step passes its stop on. -/
theorem stepStopsWhereNothingRuns : Obligations.StepStopsWhereNothingRuns := by
  refine fun s => ⟨fun hrun => step_of_fetch_fault ?_, fun hrun hend => step_of_fetch_fault ?_,
    fun hrun hend halign => step_of_fetch_refused ?_, fun hrun hend halign hmap => step_of_fetch_refused ?_,
    fun hrun hend halign hmap hword => step_of_fetch_fault ?_⟩
  · simp [fetch, hrun]
  · simp [fetch, hrun, hend]
  · simp [fetch, hrun, hend, halign]
  · simp [fetch, hrun, hend, halign, hmap]
  · simp [fetch, hrun, hend, halign, hmap, hword]

/-! ### A step is one cycle under the Control Unit -/

/-- An instruction's meaning is the cycle on its word: the word carries the codes the meaning hands to the Control Unit and
the fields it gives the datapath. -/
theorem exec_eq_runWord_encode (i : Instr) (s : State) : exec i s = runWord (encode i) s := by
  cases i with
  | add => simp [exec, execAdd, runWord, encode]
  | sub => simp [exec, execSub, runWord, encode]
  | and => simp [exec, execAnd, runWord, encode]
  | or => simp [exec, execOr, runWord, encode]
  | slt => simp [exec, execSlt, runWord, encode]
  | lw => simp [exec, execLw, runWord, encode]
  | sw => simp [exec, execSw, runWord, encode]
  | beq => simp [exec, execBeq, runWord, encode]
  | j => simp [exec, execJ, runWord, encode]

theorem step_eq_runWord {s : State} {w : Word} (h : fetch s = .next w) : step s = runWord w s := by
  cases hw : decode w with
  | ok i => rw [step_of_decoded h hw, exec_eq_runWord_encode, encodeOfDecodeIsIdentity w i hw]
  | err e => simp [step, h, hw]

/-- Settles O51: a decoded word is its instruction's encoding (O18), and any other goes through the Control Unit as it is. -/
theorem stepIsOneControlUnitCycle : Obligations.StepIsOneControlUnitCycle := fun _ _ h => step_eq_runWord h

/-- Everything a step that goes on can be, for the word it fetched. -/
theorem step_next_of_fetch {s t : State} {w : Word} (hw : fetch s = .next w) (h : step s = .next t) :
    (∃ c, controlUnit s.config (opcodeOf w) (functOf w) = .ok c ∧ t = cycleState c (fieldsOf w) s ∧
      ((c.memRead || c.memWrite) = true → accessible s.config (cycleResult c (fieldsOf w) s) = true)) ∨
    (∃ e, controlUnit s.config (opcodeOf w) (functOf w) = .err e ∧ t = takeFailure e s) :=
  consume_next (stepIsOneControlUnitCycle s w hw ▸ h)

/-- Settles O47: the cycle takes the failure, and under `halt` that is the state written out. -/
theorem failureHaltsUnderHaltPolicy : Obligations.FailureHaltsUnderHaltPolicy := by
  intro s w e hpolicy hw he
  rw [stepIsOneControlUnitCycle s w hw, he, consume, takeFailure_halt e s hpolicy]

/-! ### The invariant -/

section Invariant

variable {c : ControlSignals} {f : Fields} {s : State}

theorem aligned_nextPc {result pc : Word} (h : aligned pc = true) : aligned (nextPc c f result pc) = true :=
  aligned_iff.2 (nextPcStaysAligned c f result pc (aligned_iff.1 h))

theorem aligned_takeFailure_pc {e : Failure} (h : aligned s.pc = true) : aligned (takeFailure e s).pc = true := by
  obtain hpc | hpc := takeFailure_pc e s
  · rwa [hpc]
  · rw [hpc]
    exact aligned_iff.2 (toNat_add_four_mod (aligned_iff.1 h))

/-- A cycle keeps the data memory canonical and in the map: a store is at an accessible address. -/
theorem cycleMemory_wf_inMap {result : Word} (hwf : s.dmem.wf = true) (hmap : dataInMap s = true)
    (hacc : c.memWrite = true → accessible s.config result = true) :
    (cycleMemory c f result s).wf = true ∧
      ((cycleMemory c f result s).all fun cell => mappedByte s.config.addressMap.data cell.1) = true := by
  cases hw : c.memWrite with
  | false =>
    rw [cycleMemory_of_no_write hw]
    exact ⟨hwf, hmap⟩
  | true =>
    obtain ⟨halign, hmapped⟩ := Bool.and_eq_true_iff.1 (hacc hw)
    rw [cycleMemory, if_pos hw]
    exact ⟨storeWord_wf halign hwf, storeWord_inMap hmapped hmap⟩

/-- A cycle of a running machine keeps the invariant. -/
theorem cycleState_inv (hs : s.Inv) (hrun : s.halted = false) (hjump : c.jump.isSome = s.config.jumpEnabled)
    (hacc : (c.memRead || c.memWrite) = true → accessible s.config (cycleResult c f s) = true) :
    (cycleState c f s).Inv := by
  obtain ⟨hpc, himem, hdmem, hmap, -, -⟩ := hs
  obtain ⟨hdmem', hmap'⟩ := cycleMemory_wf_inMap (f := f) hdmem hmap fun hw => hacc (by rw [hw, Bool.or_true])
  refine ⟨aligned_nextPc hpc, himem, hdmem', hmap', ?_, ?_⟩
  · simp [haltNamesFailure, hrun]
  · simp [outputWf, hjump]

/-- A failure taken keeps it: the failure is both the output and the diagnostic. -/
theorem takeFailure_inv {e : Failure} (hs : s.Inv) : (takeFailure e s).Inv := by
  obtain ⟨hpc, himem, hdmem, hmap, -, -⟩ := hs
  refine ⟨aligned_takeFailure_pc hpc, ?_, ?_, ?_, ?_, ?_⟩
  · rwa [takeFailure_imem]
  · rwa [takeFailure_dmem]
  · rwa [dataInMap, takeFailure_dmem, takeFailure_config]
  · simp [haltNamesFailure]
  · simp [outputWf]

end Invariant

/-- Settles O53: a step is a cycle, from a running machine and under a tuple of its configuration, or a failure taken. -/
theorem stepKeepsInvariant : Obligations.StepKeepsInvariant := by
  intro s t hs h
  obtain ⟨w, hw⟩ := step_next_fetch h
  obtain ⟨hrun, -⟩ := fetch_next hw
  obtain ⟨c, hc, rfl, hacc⟩ | ⟨e, -, rfl⟩ := step_next_of_fetch hw h
  · exact cycleState_inv hs hrun (mainDecode_jump (controlUnit_ok hc).1) hacc
  · exact takeFailure_inv hs

/-! ### What a step writes and reads -/

/-- Settles O54: neither a cycle nor a failure writes them. -/
theorem stepKeepsProgramAndConfiguration : Obligations.StepKeepsProgramAndConfiguration := by
  intro s t h
  obtain ⟨w, hw⟩ := step_next_fetch h
  obtain ⟨c, -, rfl, -⟩ | ⟨e, -, rfl⟩ := step_next_of_fetch hw h
  · exact ⟨cycleState_imem .., cycleState_config ..⟩
  · exact ⟨takeFailure_imem e s, takeFailure_config e s⟩

/-- Which opcodes read memory, write it and write a register, over the five tuples (R102 to R106). -/
theorem controlUnit_accesses {c : Config} {op : Opcode} {f : FunctionCode} {v : ControlSignals}
    (h : controlUnit c op f = .ok v) :
    (v.memRead = true → op = 0x23#6) ∧ (v.memWrite = true → op = 0x2B#6) ∧
    (v.regWrite = true → op = 0x00#6 ∨ op = 0x23#6) := by
  obtain ⟨hmain, -⟩ := controlUnit_ok h
  obtain ⟨m, a⟩ := v
  obtain ⟨hop, rfl⟩ | ⟨hop, rfl⟩ | ⟨hop, rfl⟩ | ⟨hop, rfl⟩ | ⟨hop, rfl, -⟩ := mainDecode_cases hmain
  · exact ⟨nofun, nofun, fun _ => .inl hop⟩
  · exact ⟨fun _ => hop, nofun, fun _ => .inr hop⟩
  · exact ⟨nofun, fun _ => hop, nofun⟩
  · exact ⟨nofun, nofun, nofun⟩
  · exact ⟨nofun, nofun, nofun⟩

/-- Settles O55: a cycle writes what its signals enable, and a failure taken neither registers nor data memory. -/
theorem onlyTheRightInstructionsWrite : Obligations.OnlyTheRightInstructionsWrite := by
  intro s t w hw h
  obtain ⟨c, hc, rfl, -⟩ | ⟨e, he, rfl⟩ := step_next_of_fetch hw h
  · obtain ⟨-, hmem, hreg⟩ := controlUnit_accesses hc
    refine ⟨fun hop => ?_, fun hr hlw => ?_, fun _ => ⟨rfl, rfl⟩⟩
    · exact cycleMemory_of_no_write (Bool.eq_false_iff.2 (mt hmem hop))
    · exact cycleRegs_of_no_write (Bool.eq_false_iff.2 (mt hreg (not_or.2 ⟨hr, hlw⟩)))
  · refine ⟨fun _ => takeFailure_dmem e s, fun _ _ => takeFailure_regs e s, fun ⟨v, hv⟩ => ?_⟩
    rw [he] at hv
    cases hv

theorem takeFailure_halted_iff {e : Failure} {s : State} (h : s.halted = false) :
    (takeFailure e s).halted = true ↔ s.config.unsupportedPolicy = .halt := by
  cases hp : s.config.unsupportedPolicy with
  | halt => simp [takeFailure_halt e s hp]
  | reportAndSkip => simp [takeFailure_skip e s hp, h]

/-- Settles O56: the machine was running, a cycle leaves it so, and a failure halts it under that policy only. -/
theorem onlyUnrecognisedWordsHalt : Obligations.OnlyUnrecognisedWordsHalt := by
  intro s t w hw h
  obtain ⟨hrun, -⟩ := fetch_next hw
  obtain ⟨c, hc, rfl, -⟩ | ⟨e, he, rfl⟩ := step_next_of_fetch hw h
  · simp [hrun, hc]
  · rw [takeFailure_halted_iff hrun]
    exact (and_iff_left ⟨e, he⟩).symm

/-- A recognised instruction has a next state, but for LW and SW where the memory does not serve the address. -/
theorem exec_completes {i : Instr} {s : State} (hi : i.wellFormed s.config = true)
    (hacc : ∀ rs rt imm, i = .lw rs rt imm ∨ i = .sw rs rt imm →
      accessible s.config (effectiveAddress s rs imm) = true) :
    ∃ t v, exec i s = .next t ∧ t.output = some (.ok v) ∧ t.halted = s.halted := by
  cases i with
  | add rs rt rd sh => exact ⟨_, _, addExecutes s rs rt rd sh, rfl, rfl⟩
  | sub rs rt rd sh => exact ⟨_, _, subExecutes s rs rt rd sh, rfl, rfl⟩
  | and rs rt rd sh => exact ⟨_, _, andExecutes s rs rt rd sh, rfl, rfl⟩
  | or rs rt rd sh => exact ⟨_, _, orExecutes s rs rt rd sh, rfl, rfl⟩
  | slt rs rt rd sh => exact ⟨_, _, sltExecutes s rs rt rd sh, rfl, rfl⟩
  | lw rs rt imm => exact ⟨_, _, lwLoadsAlignedWord.2 s rs rt imm (hacc rs rt imm (.inl rfl)), rfl, rfl⟩
  | sw rs rt imm => exact ⟨_, _, swStoresAlignedWord.2 s rs rt imm (hacc rs rt imm (.inr rfl)), rfl, rfl⟩
  | beq rs rt imm => exact ⟨_, _, beqBranchesOnEqual s rs rt imm, rfl, rfl⟩
  | j target => exact ⟨_, _, (jumpExecutesWhenEnabled s target).1 hi, rfl, rfl⟩

/-- Settles O58: the step is the decoded instruction's meaning, which completes. -/
theorem recognisedInstructionsComplete : Obligations.RecognisedInstructionsComplete := by
  intro s w i hw hdec hi hacc
  obtain ⟨hrun, -⟩ := fetch_next hw
  obtain ⟨t, v, hexec, hout, hhalt⟩ := exec_completes hi hacc
  have hstep : step s = .next t := (step_of_decoded hw hdec).trans hexec
  exact ⟨t, v, hstep, hout, hhalt.trans hrun, by simp [safeStep, hstep, hout]⟩

/-! ### The data memory under a step -/

/-- A cycle whose accesses, if it has any, are at an accessible address goes on. -/
theorem datapath_of_accesses_accessible {c : ControlSignals} {f : Fields} {s : State}
    (h : (c.memRead || c.memWrite) = true → accessible s.config (cycleResult c f s) = true) :
    datapath c f s = .next (cycleState c f s) := by
  cases hacc : c.memRead || c.memWrite with
  | true => exact datapath_of_accessible (h hacc)
  | false =>
    obtain ⟨hread, hwrite⟩ := Bool.or_eq_false_iff.1 hacc
    exact datapath_of_no_access hread hwrite

section OtherMemory

variable {c : ControlSignals} {f : Fields} {s : State} (m : Memory)

theorem fetch_with_dmem : fetch { s with dmem := m } = fetch s := rfl

theorem takeFailure_with_dmem (e : Failure) :
    takeFailure e { s with dmem := m } = { takeFailure e s with dmem := m } := by
  unfold takeFailure
  dsimp only
  split <;> rfl

/-- A cycle that reads no memory depends on it in the memory it leaves only. -/
theorem cycleState_with_dmem (h : c.memRead = false) : cycleState c f { s with dmem := m } =
    { cycleState c f s with dmem := cycleMemory c f (cycleResult c f s) { s with dmem := m } } := by
  simp only [cycleState, cycleRegs, cycleDraws, cycleData, h]
  rfl

end OtherMemory

/-- The data memory after the cycle on a word: SW's word is stored at the effective address, and no other word stores. -/
theorem cycleMemory_fieldsOf {c : ControlSignals} {s : State} {w : Word}
    (h : controlUnit s.config (opcodeOf w) (functOf w) = .ok c) :
    cycleMemory c (fieldsOf w) (cycleResult c (fieldsOf w) s) s =
      if opcodeOf w = 0x2B#6 then
        storeWord s.config.byteOrder s.dmem (effectiveAddress s (rsOf w) (immOf w)) (getReg s.regs (rtOf w))
      else s.dmem := by
  by_cases hop : opcodeOf w = 0x2B#6
  · rw [hop, controlUnit_sw] at h
    cases h
    rw [if_pos hop]
    rfl
  · obtain ⟨-, hmem, -⟩ := controlUnit_accesses h
    rw [if_neg hop, cycleMemory_of_no_write (Bool.eq_false_iff.2 (mt hmem hop))]

/-- Settles O59: the Control Unit's answer and the address do not look at data memory, and of the tuples only LW's reads
it; a failure taken leaves it as it is. -/
theorem dataMemoryIsReadByLwOnly : Obligations.DataMemoryIsReadByLwOnly := by
  intro s t w m hw hop h
  rw [stepIsOneControlUnitCycle _ w ((fetch_with_dmem m).trans hw)]
  obtain ⟨c, hc, rfl, hacc⟩ | ⟨e, he, rfl⟩ := step_next_of_fetch hw h
  · obtain ⟨hread, -, -⟩ := controlUnit_accesses hc
    have hmem := cycleMemory_fieldsOf (s := { s with dmem := m }) hc
    rw [hc, consume, datapath_of_accesses_accessible (s := { s with dmem := m }) hacc,
      cycleState_with_dmem m (Bool.eq_false_iff.2 (mt hread hop))]
    exact congrArg (fun d => Host.Outcome.next { cycleState c (fieldsOf w) s with dmem := d }) hmem
  · have hsw : opcodeOf w ≠ 0x2B#6 := fun hsw => by
      rw [hsw, controlUnit_sw] at he
      cases he
    rw [he, consume, takeFailure_with_dmem, if_neg hsw]

end Sys2Proof.Machine
end

section
/-! PROOFS. The handling of a failing word (spec/60_exceptions.md section 2): the step takes the Control Unit's failure, and
the configured policy says what that leaves. -/

namespace Sys2Proof.Machine

/-- The step on a word the Control Unit fails on takes the failure, under either policy. -/
theorem step_of_failure {s : State} {w : Word} {e : Failure} (hw : fetch s = .next w)
    (he : controlUnit s.config (opcodeOf w) (functOf w) = .err e) : step s = .next (takeFailure e s) := by
  rw [stepIsOneControlUnitCycle s w hw, he, consume]

/-- Settles O48: the step takes the failure, and under `reportAndSkip` that is the state written out. -/
theorem failureIsSkippedUnderSkipPolicy : Obligations.FailureIsSkippedUnderSkipPolicy := by
  intro s w e hpolicy hw he
  rw [step_of_failure hw he, takeFailure_skip e s hpolicy]

end Sys2Proof.Machine
end

section
/-! PROOFS. The output of a step (spec/70_reset_and_hazards.md section 2): it is the Control Unit's answer to the step's own
word, whatever the state held before. -/

namespace Sys2Proof.Machine

/-- Settles O52: a cycle leaves the signals it ran under as the output, and a failure taken leaves the failure (R213, R214). -/
theorem stepOutputsItsOwnDecode : Obligations.StepOutputsItsOwnDecode := by
  intro s t w hw h
  obtain ⟨c, hc, rfl, -⟩ | ⟨e, he, rfl⟩ := step_next_of_fetch hw h
  · rw [cycleState_output, hc]
  · rw [takeFailure_output, he]

end Sys2Proof.Machine
end

section
/-! PROOFS. The state after reset (spec/42_instructions.md R163, spec/00_scope.md R8), and the decoder against the rows
of spec/opcode_table.json. -/

namespace Sys2Proof.Machine

/-! ### Reset -/

@[simp] theorem getReg_replicate_zero (r : RegIndex) : getReg (Vector.replicate 32 0#32) r = 0#32 := by
  unfold getReg
  split
  · rfl
  · exact Vector.getElem_replicate ..

/-- The word at a multiple of 4 ends below the end of the address space, so the range that fills the space holds it. -/
theorem mappedWord_whole {a : Word} (h : aligned a = true) :
    mappedWord [{ base := 0#32, size := 2 ^ 32 }] a = true := by
  have hmod := aligned_iff.1 h
  have hlt := a.isLt
  simp only [mappedWord, regionHolds, List.any_cons, List.any_nil, Bool.or_false, Bool.and_eq_true, decide_eq_true_eq,
    BitVec.toNat_ofNat]
  omega

/-- Settles O1: the memories are empty, the registers all 0, and both maps fill the address space. -/
theorem resetMachineIsRunningAndEmpty : Obligations.ResetMachineIsRunningAndEmpty := by
  refine ⟨rfl, rfl, rfl, fun _ => ⟨rfl, rfl⟩, rfl, getReg_replicate_zero, fun a ha => ⟨mappedWord_whole ha, ?_⟩⟩
  exact Bool.and_eq_true_iff.2 ⟨ha, mappedWord_whole ha⟩

/-- Settles O2: the pc is 0, no byte is listed, and the machine has neither halted nor put anything out. -/
theorem resetMeetsInvariant : Obligations.ResetMeetsInvariant := ⟨rfl, rfl, rfl, rfl, rfl, rfl⟩

end Sys2Proof.Machine

namespace Sys2Proof

/-! ### The rows of the opcode table -/

/-- A word decodes to an instruction exactly when it is the instruction's encoding (O17, O18). -/
theorem decode_eq_ok_iff {w : Word} {i : Instr} : decode w = .ok i ↔ encode i = w :=
  ⟨encodeOfDecodeIsIdentity w i, fun h => h ▸ decode_encode i⟩

section Masks

variable (rs rt rd : RegIndex) (shamt : BitVec 5) (f : FunctionCode) (op : Opcode) (imm : BitVec 16)
  (target : BitVec 26) (w m : Word)

theorem opcodeOf_and : opcodeOf (w &&& m) = opcodeOf w &&& opcodeOf m := BitVec.extractLsb'_and ..

theorem functOf_and : functOf (w &&& m) = functOf w &&& functOf m := BitVec.extractLsb'_and ..

/-- The mask of the R-format rows keeps the opcode. -/
@[simp] theorem opcodeOf_and_rMask : opcodeOf (w &&& 0xFC00003F#32) = opcodeOf w :=
  (opcodeOf_and ..).trans BitVec.and_allOnes

/-- The mask of the R-format rows keeps the function code. -/
@[simp] theorem functOf_and_rMask : functOf (w &&& 0xFC00003F#32) = functOf w :=
  (functOf_and ..).trans BitVec.and_allOnes

/-- The mask of the other rows keeps the opcode. -/
@[simp] theorem opcodeOf_and_opcodeMask : opcodeOf (w &&& 0xFC000000#32) = opcodeOf w :=
  (opcodeOf_and ..).trans BitVec.and_allOnes

/-- The mask of the R-format rows clears an R-format word's operands. -/
theorem encodeR_and_rMask : encodeR rs rt rd shamt f &&& 0xFC00003F#32 = encodeR 0#5 0#5 0#5 0#5 f := by
  have hmask : 0xFC00003F#32 = 0x3F#6 ++ 0#5 ++ 0#5 ++ 0#5 ++ 0#5 ++ 0x3F#6 := rfl
  have hf : f &&& 0x3F#6 = f := BitVec.and_allOnes
  rw [hmask, encodeR, encodeR, BitVec.cast_eq, BitVec.cast_eq]
  iterate 5 rw [BitVec.and_append]
  rw [hf, BitVec.and_zero, BitVec.and_zero, BitVec.and_zero, BitVec.and_zero]
  rfl

/-- The mask of the other rows clears the operands of an I-format word. -/
theorem encodeI_and_opcodeMask : encodeI op rs rt imm &&& 0xFC000000#32 = encodeI op 0#5 0#5 0#16 := by
  have hmask : 0xFC000000#32 = 0x3F#6 ++ 0#5 ++ 0#5 ++ 0#16 := rfl
  have hop : op &&& 0x3F#6 = op := BitVec.and_allOnes
  rw [hmask, encodeI, encodeI, BitVec.cast_eq, BitVec.cast_eq]
  iterate 3 rw [BitVec.and_append]
  rw [hop, BitVec.and_zero, BitVec.and_zero, BitVec.and_zero]

/-- The mask of the other rows clears the target of a J-format word. -/
theorem encodeJ_and_opcodeMask : encodeJ target &&& 0xFC000000#32 = encodeJ 0#26 := by
  have hmask : 0xFC000000#32 = 0x3F#6 ++ 0#26 := rfl
  rw [hmask, encodeJ, encodeJ, BitVec.cast_eq, BitVec.cast_eq, BitVec.and_append, BitVec.and_zero]
  rfl

end Masks

section Rows

variable {w : Word} {f : FunctionCode} {op : Opcode}

theorem exists_encodeR_iff :
    (∃ rs rt rd sh, encodeR rs rt rd sh f = w) ↔ w &&& 0xFC00003F#32 = encodeR 0#5 0#5 0#5 0#5 f := by
  constructor
  · rintro ⟨rs, rt, rd, sh, rfl⟩
    exact encodeR_and_rMask ..
  · intro h
    have hop : opcodeOf w = 0x00#6 := by simpa using congrArg opcodeOf h
    have hf : functOf w = f := by simpa using congrArg functOf h
    exact ⟨_, _, _, _, encodeR_of_fields hop hf⟩

theorem exists_encodeI_iff :
    (∃ rs rt imm, encodeI op rs rt imm = w) ↔ w &&& 0xFC000000#32 = encodeI op 0#5 0#5 0#16 := by
  constructor
  · rintro ⟨rs, rt, imm, rfl⟩
    exact encodeI_and_opcodeMask ..
  · intro h
    have hop : opcodeOf w = op := by simpa using congrArg opcodeOf h
    exact ⟨_, _, _, encodeI_of_fields hop⟩

theorem exists_encodeJ_iff :
    (∃ target, encodeJ target = w) ↔ w &&& 0xFC000000#32 = encodeJ 0#26 := by
  constructor
  · rintro ⟨target, rfl⟩
    exact encodeJ_and_opcodeMask ..
  · intro h
    have hop : opcodeOf w = 0x02#6 := by simpa using congrArg opcodeOf h
    exact ⟨_, encodeJ_of_fields hop⟩

end Rows

/-- Settles O19: a row's match is the encoding of its instruction with every operand 0, and its mask clears the operands
of a word and keeps the codes that put the word in the row. -/
theorem decodeMatchesTableMasks : Obligations.DecodeMatchesTableMasks := by
  intro w
  simp only [decode_eq_ok_iff]
  exact ⟨exists_encodeR_iff, exists_encodeR_iff, exists_encodeR_iff, exists_encodeR_iff, exists_encodeR_iff,
    exists_encodeI_iff, exists_encodeI_iff, exists_encodeI_iff, exists_encodeJ_iff⟩

/-- Settles O21: each of the nine words is its instruction's encoding; the other three have a code outside the table. -/
theorem sampleWordsDecode : Obligations.SampleWordsDecode := by
  have hdec {w : Word} {i : Instr} (h : encode i = w) : decode w = .ok i := decode_eq_ok_iff.2 h
  exact ⟨hdec rfl, hdec rfl, hdec rfl, hdec rfl, hdec rfl, hdec rfl, hdec rfl, hdec rfl, hdec rfl, rfl, rfl, rfl⟩

end Sys2Proof
end
